-- ==== Sys2Proof/Word.lean ====
section
/-! DEFINITION. The value types of the hardware (00_scope.md R10, R12): the byte, the 32-bit word and the 64-bit value,
all unsigned, with arithmetic modulo a power of two. Nothing here is signed (R10). -/

namespace Sys2Proof

/-- A `u8` (R10): a control code, a checksum, one byte of a frame. -/
abbrev Byte := BitVec 8

/-- A `u32` (R10, R25): one register of the device, one word of a block. -/
abbrev Word := BitVec 32

/-- A `u64` (R10): the nonce or the block counter taken as one value (R21, R22). -/
abbrev Word64 := BitVec 64

/-- The key, `K[0..7]` (10_state.md R20). -/
abbrev Key := Vector Word 8

/-- The nonce, or the block counter, as its two halves, low half first (10_state.md R21, R22). -/
abbrev Halves := Vector Word 2

/-- A block of sixteen words (41_cipher_core.md R124): word `4r + c` is row `r`, column `c`. -/
abbrev Block := Vector Word 16

end Sys2Proof
end

