-- ==== Sys2Proof/Config.lean ====
section
/-! DEFINITION. What is fixed for one device and does not change as it runs: the parameters the source names but does not
fix (00_scope.md R8), gathered in `Config`; the wire control codes (R9); the fixed numbers of R7 that a rule reads; and the
one parameter that has no default, as a constant with no body. -/

namespace Sys2Proof

/-- The open parameters of 00_scope.md R8 that have a default. A `Config` is carried in the machine's state so that a
statement about every state is a statement about every choice of them; no step changes it (notes/assumptions/1.md). -/
structure Config where
  /-- `SIGMA[0..3]`, the four diagonal constants of the block (R8, 41_cipher_core.md R125). -/
  sigma : Vector Word 4
  /-- `COUNTER_INIT`, the value reset loads into the block counter (R8, 10_state.md R47). -/
  counterInit : Word64
  /-- `RX_DEPTH`: how many bytes the host-to-device queue holds, `none` for unbounded (R8). -/
  rxDepth : Option Nat
  /-- `TX_DEPTH`: how many bytes the device-to-host queue holds, `none` for unbounded (R8). -/
  txDepth : Option Nat
  deriving DecidableEq, Repr

/-- The defaults of 00_scope.md R8. The four words are the spec's own, from general knowledge
(93_implementation_defined.md GK1; notes/assumptions/2.md): no statement rests on them. -/
def Config.default : Config where
  sigma := #v[0x61707865, 0x3320646E, 0x79622D32, 0x6B206574]
  counterInit := 0
  rxDepth := none
  txDepth := none

/-- `RESET_FLUSHES_QUEUES` (00_scope.md R8, 70_reset_and_hazards.md R217): whether an external reset empties `RX` and
`TX`. The spec gives it no default, so it has no body here: what is proved holds for both choices
(notes/assumptions/3.md). -/
opaque Config.resetFlushesQueues : Bool

/-- The wire control codes of 00_scope.md R9. `encrypt` and `sendCipher` have one value (90_conflicts.md C3, C8). -/
def Config.codeSendKey : Byte := 0x13
/-- `SEND_NONCE` (R9). -/
def Config.codeSendNonce : Byte := 0x14
/-- `ENCRYPT`, host to device (R9). -/
def Config.codeEncrypt : Byte := 0x15
/-- `SEND_CIPHER`, device to host: the same value as `ENCRYPT` (R9, 30_encoding.md R93). -/
def Config.codeSendCipher : Byte := 0x15
/-- `ACK` (R9). -/
def Config.codeAck : Byte := 0xB1
/-- `NACK` (R9). -/
def Config.codeNack : Byte := 0xC2

/-- `CSUM_POLY` (00_scope.md R7). -/
def Config.csumPoly : Byte := 0x8C
/-- `CSUM_INIT` (00_scope.md R7). -/
def Config.csumInit : Byte := 0x00
/-- `DOUBLE_ROUNDS` (00_scope.md R7; 90_conflicts.md C1). -/
def Config.doubleRounds : Nat := 10

/-- `COLS` (00_scope.md R7): the word indices of the four column quarter-rounds, in order. -/
def Config.cols : List (Fin 16 × Fin 16 × Fin 16 × Fin 16) :=
  [(0, 4, 8, 12), (5, 9, 13, 1), (10, 14, 2, 6), (15, 3, 7, 11)]

/-- `ROWS` (00_scope.md R7): the word indices of the four row quarter-rounds, in order. -/
def Config.rows : List (Fin 16 × Fin 16 × Fin 16 × Fin 16) :=
  [(0, 1, 2, 3), (5, 6, 7, 4), (10, 11, 8, 9), (15, 12, 13, 14)]

end Sys2Proof
end

