-- ==== Sys2Proof/Machine/Operands.lean ====
section
/-! DEFINITION. The operand forms: the byte lanes of a word, the little-endian assembly of a word from its four bytes, and
the byte view of a file of words (00_scope.md R11, R13, R14; 20_memory.md R50, R51; 10_state.md R43). Byte order is
decided here and nowhere else. -/

namespace Sys2Proof.Machine

/-- `w[8k+7 : 8k]`, byte lane `k` of a word (00_scope.md R11, R13). -/
def getLane (w : Word) (k : Nat) : Byte := (w >>> (8 * k)).setWidth 8

/-- `F[i].byte(k) <- b` on one word: bits `8k+7 : 8k` become `b`, the other 24 stay (00_scope.md R13). -/
def setLane (w : Word) (k : Nat) (b : Byte) : Word :=
  (w &&& ~~~((0xFF : Word) <<< (8 * k))) ||| (b.setWidth 32 <<< (8 * k))

/-- `bytes_le(w)`: the four bytes of a word, least significant first (20_memory.md R51). -/
def bytesLE (w : Word) : List Byte := [getLane w 0, getLane w 1, getLane w 2, getLane w 3]

/-- `word_le(b0, b1, b2, b3)`: each byte zero-extended into its lane (20_memory.md R51, 30_encoding.md R86, R88). -/
def wordLE (b0 b1 b2 b3 : Byte) : Word :=
  b0.setWidth 32 ||| (b1.setWidth 32 <<< 8) ||| (b2.setWidth 32 <<< 16) ||| (b3.setWidth 32 <<< 24)

/-- `bytes_le` of a list of words (20_memory.md R51, last sentence). -/
def bytesLEs : List Word → List Byte
  | [] => []
  | w :: ws => bytesLE w ++ bytesLEs ws

/-- The words whose `bytes_le` the first `4 * k` bytes are, and the bytes after them; none if there are fewer bytes
(30_encoding.md R82, R86). -/
def takeWords : Nat → List Byte → Option (List Word × List Byte)
  | 0, bs => some ([], bs)
  | k + 1, b0 :: b1 :: b2 :: b3 :: bs =>
    match takeWords k bs with
    | some (ws, rest) => some (wordLE b0 b1 b2 b3 :: ws, rest)
    | none => none
  | _ + 1, _ => none

/-- Byte `n` of a file of `k` words: lane `n mod 4` of word `n div 4` (00_scope.md R14). -/
def fileByte {k : Nat} (F : Vector Word k) (n : Fin (4 * k)) : Byte :=
  getLane (F[n.val / 4]'(by have := n.isLt; omega)) (n.val % 4)

/-- Write byte `n` of a file of `k` words: `F[n div 4].byte(n mod 4) <- b` (00_scope.md R13;
43_session_provisioning.md R153, R158). -/
def setFileByte {k : Nat} (F : Vector Word k) (n : Fin (4 * k)) (b : Byte) : Vector Word k :=
  have h : n.val / 4 < k := by have := n.isLt; omega
  F.set (n.val / 4) (setLane F[n.val / 4] (n.val % 4) b) h

/-- `C[1] : C[0]`, or `N[1] : N[0]`: two halves as one 64-bit value, the word of index 1 in the high bits
(10_state.md R21, R22; 30_encoding.md R87). -/
def join64 (h : Halves) : Word64 := (h[1] ++ h[0] : BitVec (32 + 32))

/-- The two halves of a 64-bit value, low half first (10_state.md R21, R22). -/
def split64 (v : Word64) : Halves := #v[v.setWidth 32, (v >>> 32).setWidth 32]

/-- The bytes of a number read as one little-endian integer, `k` of them (30_encoding.md R80: frame bit `8j + i` is bit
`i` of byte `j`). -/
def bytesOfNat : Nat → Nat → List Byte
  | 0, _ => []
  | k + 1, v => BitVec.ofNat 8 v :: bytesOfNat k (v / 256)

end Sys2Proof.Machine
end

