-- ==== Sys2Proof/Machine/Cipher.lean ====
section
/-! DEFINITION. The cipher core (41_cipher_core.md R120 to R134): the quarter-round, the rounds, the keystream block and
the encryption of one block. Pure functions of their operands and of the four constants `SIGMA`. -/

namespace Sys2Proof.Machine

/-- `ROTL(a, n)`, left rotation by `n mod 32` places (41_cipher_core.md R120). -/
def rotl (a : Word) (n : Nat) : Word :=
  let m := n % 32
  if m = 0 then a else (a <<< m) ||| (a >>> (32 - m))

/-- `QR(a, b, c, d)`, the quarter-round (41_cipher_core.md R121): `b`, `c`, `d`, `a` in this order, each from the values
already updated. -/
def qr (a b c d : Word) : Word × Word × Word × Word :=
  let b' := b ^^^ rotl (a + d) 7
  let c' := c ^^^ rotl (b' + a) 9
  let d' := d ^^^ rotl (c' + b') 13
  let a' := a ^^^ rotl (d' + c') 18
  (a', b', c', d')

/-- `QR` backwards (41_cipher_core.md R122): the last update is undone first. -/
def qrInverse (a' b' c' d' : Word) : Word × Word × Word × Word :=
  let a := a' ^^^ rotl (d' + c') 18
  let d := d' ^^^ rotl (c' + b') 13
  let c := c' ^^^ rotl (b' + a) 9
  let b := b' ^^^ rotl (a + d) 7
  (a, b, c, d)

/-- `QR_AT(X, (i, j, k, l))`: a quarter-round on four words of a block, the other twelve unchanged
(41_cipher_core.md R121). -/
def qrAt (X : Block) (t : Fin 16 × Fin 16 × Fin 16 × Fin 16) : Block :=
  let r := qr X[t.1] X[t.2.1] X[t.2.2.1] X[t.2.2.2]
  (((X.set t.1 r.1).set t.2.1 r.2.1).set t.2.2.1 r.2.2.1).set t.2.2.2 r.2.2.2

/-- `COLUMNROUND` (41_cipher_core.md R126). -/
def columnRound (X : Block) : Block := Config.cols.foldl qrAt X

/-- `ROWROUND` (41_cipher_core.md R127). -/
def rowRound (X : Block) : Block := Config.rows.foldl qrAt X

/-- `DOUBLEROUND(X) = ROWROUND(COLUMNROUND(X))` (41_cipher_core.md R129). -/
def doubleRound (X : Block) : Block := rowRound (columnRound X)

/-- `k` double-rounds, one after the other (41_cipher_core.md R130). -/
def doubleRounds : Nat → Block → Block
  | 0, X => X
  | k + 1, X => doubleRounds k (doubleRound X)

/-- Word-by-word addition modulo 2^32: the feed-forward (41_cipher_core.md R130). -/
def addBlocks (X B : Block) : Block := X.zipWith (fun x b => x + b) B

/-- Word-by-word exclusive-or: step 5 of `ENCRYPT_BLOCK` (41_cipher_core.md R131). -/
def xorBlocks (Z P : Block) : Block := Z.zipWith (fun z p => z ^^^ p) P

/-- `CORE(B)`, the keystream block of a pre-round block: ten double-rounds, then the feed-forward of `B`
(41_cipher_core.md R130). -/
def keystream (B : Block) : Block := addBlocks (doubleRounds Config.doubleRounds B) B

/-- `BUILD(K, N, ctr)` (41_cipher_core.md R125), `ctr` as its two halves, low first. -/
def build (sigma : Vector Word 4) (K : Key) (N ctr : Halves) : Block :=
  #v[sigma[0], K[0],     K[1],     K[2],
     K[3],     sigma[1], N[0],     N[1],
     ctr[0],   ctr[1],   sigma[2], K[4],
     K[5],     K[6],     K[7],     sigma[3]]

/-- `INC64` in register terms (41_cipher_core.md R132): the carry out of the low half goes into the high half, and
2^64 - 1 wraps to 0. -/
def incCounter (C : Halves) : Halves :=
  #v[C[0] + 1, if C[0] = 0xFFFFFFFF then C[1] + 1 else C[1]]

/-- `ENCRYPT_BLOCK(K, N, ctr, P)` (41_cipher_core.md R131): the ciphertext under the counter BEFORE the increment, and
the next counter. Total; reads nothing but its operands and `SIGMA` (R133). -/
def encryptBlock (sigma : Vector Word 4) (K : Key) (N ctr : Halves) (P : Block) : Block × Halves :=
  (xorBlocks (keystream (build sigma K N ctr)) P, incCounter ctr)

/-- `DECRYPT_BLOCK = ENCRYPT_BLOCK` (41_cipher_core.md R134): there is no decrypt transaction; a host decrypts by
encrypting again under the same counter. -/
def decryptBlock (sigma : Vector Word 4) (K : Key) (N ctr : Halves) (Q : Block) : Block × Halves :=
  encryptBlock sigma K N ctr Q

end Sys2Proof.Machine
end

