-- ==== Sys2Proof/Machine/Checksum.lean ====
section
/-! DEFINITION. The checksum validator, `CSUM` (40_checksum.md R110 to R114): pure functions, no state, no failure. -/

namespace Sys2Proof.Machine

/-- `CSUM_BIT(c, d)`, one shift round (40_checksum.md R111): feedback is bit 0 exclusive-or the data bit, the register
shifts right with zero fill, and the constant is applied after the shift. -/
def csumBit (c : Byte) (d : Bool) : Byte :=
  if (c.getLsbD 0 ^^ d) = true then (c >>> 1) ^^^ Config.csumPoly else c >>> 1

/-- `CSUM_BYTE(c, x)`: eight rounds, bit 0 of `x` first (40_checksum.md R112). -/
def csumByte (c x : Byte) : Byte :=
  [0, 1, 2, 3, 4, 5, 6, 7].foldl (fun c k => csumBit c (x.getLsbD k)) c

/-- `CSUM(s)`: a span of any length, byte 0 first, from `CSUM_INIT`; the register after the last byte is the result
(40_checksum.md R113). -/
def csum (s : List Byte) : Byte := s.foldl csumByte Config.csumInit

/-- One round of the equivalent form of 40_checksum.md R114. -/
def csumShift (c : Byte) : Byte :=
  if c.getLsbD 0 = true then (c >>> 1) ^^^ Config.csumPoly else c >>> 1

/-- The equivalent form of `CSUM_BYTE` (40_checksum.md R114): exclusive-or the byte in, then eight rounds. -/
def csumByteAlt (c x : Byte) : Byte :=
  csumShift (csumShift (csumShift (csumShift (csumShift (csumShift (csumShift (csumShift (c ^^^ x))))))))

end Sys2Proof.Machine
end

