-- ==== Sys2Proof/Machine/Phase.lean ====
section
/-! DEFINITION. The controller's phase register `pc`, this hardware's program counter (10_state.md R30 to R34): its 196
values, the one kind of step each has, and the SessionState each belongs to. -/

namespace Sys2Proof.Machine

/-- The phases of 10_state.md R31, one constructor per row of its table. `p` is the packet index ("chunk_index"), `n`
the byte offset within the frame; both are part of the phase, not registers of their own (R30). -/
inductive Phase where
  | waitKey                                   -- P_WAIT_KEY
  | keyAck1                                   -- P_KEY_ACK1
  | keyData (n : Fin 32)                      -- P_KEY_DATA(n)
  | keyAck2                                   -- P_KEY_ACK2
  | waitNonce                                 -- P_WAIT_NONCE
  | nonceAck1                                 -- P_NONCE_ACK1
  | nonceData (n : Fin 8)                     -- P_NONCE_DATA(n)
  | nonceAck2                                 -- P_NONCE_ACK2
  | waitEnc                                   -- P_WAIT_ENC
  | encAck                                    -- P_ENC_ACK
  | rxData (p : Fin 4) (n : Fin 16)           -- P_RX_DATA(p, n)
  | rxCsum (p : Fin 4)                        -- P_RX_CSUM(p)
  | rxReply (p : Fin 4)                       -- P_RX_REPLY(p)
  | encrypt                                   -- P_ENCRYPT
  | announce                                  -- P_ANNOUNCE
  | announceAck                               -- P_ANNOUNCE_ACK
  | txData (p : Fin 4) (n : Fin 16)           -- P_TX_DATA(p, n)
  | txCsum (p : Fin 4)                        -- P_TX_CSUM(p)
  | txAck (p : Fin 4)                         -- P_TX_ACK(p)
  | halt                                      -- P_HALT
  deriving DecidableEq, Repr

/-- The kind of step a phase has (00_scope.md R17, 10_state.md R31): consume a byte, send a byte, compute, or none. -/
inductive StepKind where
  | rx
  | tx
  | internal
  | none
  deriving DecidableEq, Repr

/-- The third column of the table of 10_state.md R31: each phase has exactly one kind of step. -/
def Phase.kind : Phase → StepKind
  | .waitKey | .keyData _ | .waitNonce | .nonceData _ | .waitEnc
  | .rxData _ _ | .rxCsum _ | .announceAck | .txAck _ => .rx
  | .keyAck1 | .keyAck2 | .nonceAck1 | .nonceAck2 | .encAck
  | .rxReply _ | .announce | .txData _ _ | .txCsum _ => .tx
  | .encrypt => .internal
  | .halt => .none

/-- The source's seven named states (10_state.md R32). -/
inductive SessionState where
  | awaitingKey
  | awaitingNonce
  | ready
  | receivingBlock (p : Fin 4)
  | encrypting
  | sendingBlock (p : Fin 4)
  | faulted
  deriving DecidableEq, Repr

/-- `SessionState` as a function of `pc`: the fourth column of the table of 10_state.md R31 (R32; the spec's decision D8
says to which state an acknowledgement belongs). -/
def Phase.sessionState : Phase → SessionState
  | .waitKey | .keyAck1 | .keyData _ | .keyAck2 => .awaitingKey
  | .waitNonce | .nonceAck1 | .nonceData _ | .nonceAck2 => .awaitingNonce
  | .waitEnc | .encAck => .ready
  | .rxData p _ | .rxCsum p | .rxReply p => .receivingBlock p
  | .encrypt | .announce | .announceAck => .encrypting
  | .txData p _ | .txCsum p | .txAck p => .sendingBlock p
  | .halt => .faulted

/-- The phase after byte `n` of the key frame (43_session_provisioning.md R153). -/
def Phase.afterKeyByte (n : Fin 32) : Phase :=
  if h : n.val < 31 then .keyData ⟨n.val + 1, by omega⟩ else .keyAck2

/-- The phase after byte `n` of the nonce frame (43_session_provisioning.md R158). -/
def Phase.afterNonceByte (n : Fin 8) : Phase :=
  if h : n.val < 7 then .nonceData ⟨n.val + 1, by omega⟩ else .nonceAck2

/-- The phase after payload byte `n` of a received packet `p` (44_session_encrypt_cycle.md R169). -/
def Phase.afterRxByte (p : Fin 4) (n : Fin 16) : Phase :=
  if h : n.val < 15 then .rxData p ⟨n.val + 1, by omega⟩ else .rxCsum p

/-- The phase after an accepted packet `p` (44_session_encrypt_cycle.md R171, the `MATCH == 1` branch). -/
def Phase.afterRxPacket (p : Fin 4) : Phase :=
  if h : p.val < 3 then .rxData ⟨p.val + 1, by omega⟩ 0 else .encrypt

/-- The phase after payload byte `n` of a sent packet `p` (44_session_encrypt_cycle.md R177). -/
def Phase.afterTxByte (p : Fin 4) (n : Fin 16) : Phase :=
  if h : n.val < 15 then .txData p ⟨n.val + 1, by omega⟩ else .txCsum p

/-- The phase after an acknowledged packet `p` (44_session_encrypt_cycle.md R179, the `b == 0xB1` branch). -/
def Phase.afterTxPacket (p : Fin 4) : Phase :=
  if h : p.val < 3 then .txData ⟨p.val + 1, by omega⟩ 0 else .waitEnc

end Sys2Proof.Machine
end

