-- ==== Sys2Proof/Machine/State.lean ====
section
/-! DEFINITION. The machine's state as plain data (10_state.md): the device tuple `( K, N, C, IN, OUT, MATCH, pc )`, the
two queues of the link, which are system state (R41, R42, R44), and the fixed parameters; the reasons a step can stop; and
the state after reset. -/

namespace Sys2Proof.Machine

/-- One block buffer as its byte view (10_state.md R40, R43): the bytes at addresses 0 to 63, in one canonical form
(addresses strictly rising, no entry equal to `Memory.unlisted`). -/
abbrev Memory := List Host.Cell

/-- What a byte of a buffer that no entry lists reads as. The spec leaves the buffers unspecified until written
(10_state.md R47): DESIGN CHOICE, notes/assumptions/5.md. -/
def Memory.unlisted : Byte := 0x00

/-- The state of the device and of its link. -/
structure State where
  /-- The open parameters of 00_scope.md R8: fixed, no step changes them (notes/assumptions/1.md). -/
  cfg : Config
  /-- `K[0..7]` (10_state.md R20). -/
  key : Key
  /-- `N[0..1]`, `nonce_lo` first (10_state.md R21). -/
  nonce : Halves
  /-- `C[0..1]`, `counter_lo` first (10_state.md R22). -/
  counter : Halves
  /-- `IN[0..15]`, as bytes: word `i` is the little-endian word at byte address `4i` (10_state.md R26, R43). -/
  inBuf : Memory
  /-- `OUT[0..15]`, as bytes (10_state.md R27, R43). -/
  outBuf : Memory
  /-- `MATCH`, the one flag (10_state.md R35). -/
  matchFlag : Bool
  /-- `pc`, the phase register (10_state.md R30). -/
  pc : Phase
  /-- `RX`, the host-to-device queue, head first (10_state.md R41). -/
  rx : List Byte
  /-- `TX`, the device-to-host queue, oldest byte first (10_state.md R42). -/
  tx : List Byte
  deriving DecidableEq, Repr

/-- Why the device takes no step. None of these is a fault in the source's sense (93_implementation_defined.md U8, U9):
they are the three ways of 00_scope.md R17 in which no step is enabled, as named stuck states (notes/assumptions/6.md). -/
inductive Fault where
  /-- `RX` is empty in an rx phase: the device blocks and nothing changes (00_scope.md R17, 42_byte_transport.md R142,
  70_reset_and_hazards.md R231). Raised by the fetch of every phase of kind rx. Safe: a host action that appends a byte
  enables the step again. -/
  | stuckRx
  /-- `TX` is full in a tx phase: the device blocks and nothing changes (42_byte_transport.md R143,
  70_reset_and_hazards.md R231). Raised by every byte event that sends; only with a finite `TX_DEPTH`. Safe. -/
  | stuckTx
  /-- `P_HALT` has no step (60_exceptions.md R200, R202). Raised by the fetch in `P_HALT`; only reset leaves it. Safe. -/
  | halted
  deriving DecidableEq, Repr

/-- Why an instruction has no meaning where it was put. -/
inductive Refusal where
  /-- The instruction of this mnemonic has not been given its meaning. Raised by an arm of exec only. Safe. -/
  | notModelled (mnemonic : String)
  /-- The instruction of this mnemonic is not one the phase can run: it is sent by the device in another phase, or it is
  the byte of a positional frame and the position is not that frame's (30_encoding.md R91, R94, R98;
  notes/assumptions/8.md). Raised by the meanings; a step of the machine never answers with it. Safe. -/
  | notSelected (mnemonic : String)
  deriving DecidableEq, Repr

/-- The state right after reset (10_state.md R47, 70_reset_and_hazards.md R215, R225): `pc` at `P_WAIT_KEY`, the counter
at `COUNTER_INIT` of the default parameters (that is 0), both queues empty. The spec gives `K`, `N`, `IN`, `OUT` and
`MATCH` no value: they are zero here, a DESIGN CHOICE (notes/assumptions/4.md) on which no statement rests. -/
def State.reset : State where
  cfg := Config.default
  key := #v[0, 0, 0, 0, 0, 0, 0, 0]
  nonce := #v[0, 0]
  counter := split64 Config.default.counterInit
  inBuf := []
  outBuf := []
  matchFlag := false
  pc := .waitKey
  rx := []
  tx := []

end Sys2Proof.Machine
end

