-- ==== Sys2Proof/Machine/Ops.lean ====
section
/-! DEFINITION. The shared operations over the state: the byte view of the two block buffers (00_scope.md R14), the four
transport primitives (42_byte_transport.md R140 to R145), the entry to the halt and the reset action, which is the only
way back from it (60_exceptions.md R200, R204; 70_reset_and_hazards.md R215). -/

namespace Sys2Proof.Machine

/-! ### The block buffers -/

/-- The byte at address `a` of a buffer (00_scope.md R14). -/
def Memory.read : Memory → Nat → Byte
  | [], _ => Memory.unlisted
  | (k, v) :: m, a => if k = a then v else Memory.read m a

/-- The buffer without its entry for `a`. -/
def Memory.erase (m : Memory) (a : Nat) : Memory := m.filter (fun c => c.1 != a)

/-- Put an entry where the rising order of addresses wants it. -/
def Memory.insert : Memory → Nat → Byte → Memory
  | [], a, b => [(a, b)]
  | (k, v) :: m, a, b => if a < k then (a, b) :: (k, v) :: m else (k, v) :: Memory.insert m a b

/-- Write byte `b` at address `a`. Writing what an unlisted address reads as removes the entry, so that equal buffers
are equal data. -/
def Memory.write (m : Memory) (a : Nat) (b : Byte) : Memory :=
  if b = Memory.unlisted then m.erase a else (m.erase a).insert a b

/-- `MemRead(F, a, n)` (00_scope.md R14). -/
def Memory.readBytes (m : Memory) (a : Nat) : Nat → List Byte
  | 0 => []
  | n + 1 => m.read a :: Memory.readBytes m (a + 1) n

/-- `MemWrite(F, a, n, s)`, `n` the length of `s` (00_scope.md R14). -/
def Memory.writeBytes (m : Memory) (a : Nat) : List Byte → Memory
  | [] => m
  | b :: bs => (m.write a b).writeBytes (a + 1) bs

/-- Word `i` of a buffer: the little-endian word at byte address `4i` (10_state.md R43, 20_memory.md R51). -/
def Memory.word (m : Memory) (i : Nat) : Word :=
  wordLE (m.read (4 * i)) (m.read (4 * i + 1)) (m.read (4 * i + 2)) (m.read (4 * i + 3))

/-- All sixteen words of a buffer (10_state.md R40: `P_ENCRYPT` reads `IN` as words). -/
def Memory.block (m : Memory) : Block :=
  #v[m.word 0, m.word 1, m.word 2, m.word 3, m.word 4, m.word 5, m.word 6, m.word 7,
     m.word 8, m.word 9, m.word 10, m.word 11, m.word 12, m.word 13, m.word 14, m.word 15]

/-- Write all sixteen words of a buffer (10_state.md R27: `P_ENCRYPT` writes `OUT` as words). -/
def Memory.writeBlock (m : Memory) (Q : Block) : Memory := m.writeBytes 0 (bytesLEs Q.toList)

/-- Strictly rising addresses. -/
def Memory.rising : Memory → Bool
  | [] => true
  | (k, _) :: m => m.all (fun c => k < c.1) && Memory.rising m

/-- The canonical form of a buffer: addresses strictly rising, within the 64 bytes of 10_state.md R40, no entry equal to
what an unlisted address reads as. -/
def Memory.wf (m : Memory) : Bool :=
  m.rising && m.all (fun c => c.1 < 64 && c.2 != Memory.unlisted)

/-- The byte address `16p + n` of byte `n` of packet `p`, the only form of address there is (20_memory.md R57). -/
def packetAddr (p : Fin 4) (n : Nat) : Nat := 16 * p.val + n

/-! ### The link -/

/-- Whether a tx step is enabled: `TX` has room, always when `TX_DEPTH` is unbounded (00_scope.md R17). -/
def State.txRoom (s : State) : Bool :=
  match s.cfg.txDepth with
  | none => true
  | some d => s.tx.length < d

/-- Whether the host can append to `RX` (00_scope.md R8, 93_implementation_defined.md U5: a full `RX` blocks the host). -/
def State.rxRoom (s : State) : Bool :=
  match s.cfg.rxDepth with
  | none => true
  | some d => s.rx.length < d

/-- `recv_u8()`: the head of `RX` and the state without it; none when the device blocks (42_byte_transport.md R142). -/
def recvU8 (s : State) : Option (Byte × State) :=
  match s.rx with
  | [] => none
  | b :: rest => some (b, { s with rx := rest })

/-- `send_u8(b)`: append `b` to `TX`; none when the device blocks (42_byte_transport.md R143). -/
def sendU8 (b : Byte) (s : State) : Option State :=
  if s.txRoom then some { s with tx := s.tx ++ [b] } else none

/-- `recv_u32_le()` as four byte receives (42_byte_transport.md R144, R146). The machine's step takes them one at a time;
this is their composition. -/
def recvU32LE (s : State) : Option (Word × State) := do
  let (b0, s) ← recvU8 s
  let (b1, s) ← recvU8 s
  let (b2, s) ← recvU8 s
  let (b3, s) ← recvU8 s
  return (wordLE b0 b1 b2 b3, s)

/-- `send_u32_le(w)` as four byte sends (42_byte_transport.md R145, R146). -/
def sendU32LE (w : Word) (s : State) : Option State := do
  let s ← sendU8 (getLane w 0) s
  let s ← sendU8 (getLane w 1) s
  let s ← sendU8 (getLane w 2) s
  sendU8 (getLane w 3) s

/-- A tx step: send `b` and go on at phase `next`; the device blocks when `TX` is full (00_scope.md R17, R143). -/
def sendThen (b : Byte) (next : Phase) (s : State) : Host.Outcome State Fault Refusal :=
  match sendU8 b s with
  | some s' => .next { s' with pc := next }
  | none => .fault .stuckTx

/-! ### The halt, and reset -/

/-- Entry to `Faulted` (60_exceptions.md R200, R201): `pc <- P_HALT` and nothing else; nothing is saved, every register
keeps its value. The one trap of this hardware. -/
def enterHalt (s : State) : State := { s with pc := .halt }

/-- What the registers that reset leaves unspecified hold after it (10_state.md R47): any values at all. -/
structure ResetContents where
  /-- `K` -/
  key : Key
  /-- `N` -/
  nonce : Halves
  /-- `IN`, as words -/
  inBlock : Block
  /-- `OUT`, as words -/
  outBlock : Block
  /-- `MATCH` -/
  matchFlag : Bool
  deriving DecidableEq, Repr

/-- The reset action (70_reset_and_hazards.md R215 to R217): an action of the environment, possible in every state, the
only exit from the halt (60_exceptions.md R204). `pc` and the counter are set; the unspecified registers hold whatever
`u` says, for any `u`; whether the queues are emptied is the open parameter `RESET_FLUSHES_QUEUES`. -/
def resetAction (u : ResetContents) (s : State) : State :=
  { s with
    pc := .waitKey
    counter := split64 s.cfg.counterInit
    key := u.key
    nonce := u.nonce
    inBuf := Memory.writeBlock [] u.inBlock
    outBuf := Memory.writeBlock [] u.outBlock
    matchFlag := u.matchFlag
    rx := if Config.resetFlushesQueues then [] else s.rx
    tx := if Config.resetFlushesQueues then [] else s.tx }

end Sys2Proof.Machine
end

