-- ==== Sys2Proof/Machine/Flags.lean ====
section
/-! DEFINITION. The one flag, `MATCH` (10_state.md R35), and the checksum of a packet it is computed from
(20_memory.md R55). No other operation sets a flag: the cipher's additions leave none (41_cipher_core.md R123). -/

namespace Sys2Proof.Machine

/-- `CSUM(MemRead(F, 16p, 16))`: the checksum of packet `p` of a buffer, its sixteen bytes in link order
(20_memory.md R55, 40_checksum.md R118). -/
def packetCsum (m : Memory) (p : Fin 4) : Byte := csum (m.readBytes (packetAddr p 0) 16)

/-- What `MATCH` becomes when the checksum byte `b` of packet `p` is consumed: 8-bit equality with the recomputed
checksum, nothing else (30_encoding.md R89, 44_session_encrypt_cycle.md R170). -/
def matchOf (s : State) (p : Fin 4) (b : Byte) : Bool := b == packetCsum s.inBuf p

end Sys2Proof.Machine
end

