-- ==== Sys2Proof/Machine/PhaseRules.lean ====
section
/-! DEFINITION. What each phase's step does (43_session_provisioning.md R151 to R159, 44_session_encrypt_cycle.md R166 to
R179), one definition per rule, each once. The rules of phases of kind rx take the byte `b` just consumed from `RX` and
the state without it. -/

namespace Sys2Proof.Machine

/-! ### Phases of kind rx -/

/-- The three waits, `P_WAIT_KEY`, `P_WAIT_NONCE`, `P_WAIT_ENC` (R151, R156, R166): the awaited code goes on, any other
byte is discarded (30_encoding.md R97, R99). -/
def waitFor (code : Byte) (next : Phase) (b : Byte) (s : State) : State :=
  { s with pc := if b = code then next else s.pc }

/-- `P_KEY_DATA(n)` (43_session_provisioning.md R153). -/
def keyDataRule (n : Fin 32) (b : Byte) (s : State) : State :=
  { s with key := setFileByte s.key n b, pc := Phase.afterKeyByte n }

/-- `P_NONCE_DATA(n)` (43_session_provisioning.md R158). -/
def nonceDataRule (n : Fin 8) (b : Byte) (s : State) : State :=
  { s with nonce := setFileByte s.nonce n b, pc := Phase.afterNonceByte n }

/-- `P_RX_DATA(p, n)` (44_session_encrypt_cycle.md R169): the payload byte is stored before it is checked (R168). -/
def rxDataRule (p : Fin 4) (n : Fin 16) (b : Byte) (s : State) : State :=
  { s with inBuf := s.inBuf.write (packetAddr p n.val) b, pc := Phase.afterRxByte p n }

/-- `P_RX_CSUM(p)` (44_session_encrypt_cycle.md R170). -/
def rxCsumRule (p : Fin 4) (b : Byte) (s : State) : State :=
  { s with matchFlag := matchOf s p b, pc := .rxReply p }

/-- `P_ANNOUNCE_ACK` (44_session_encrypt_cycle.md R175): exactly one byte decides between sending and the halt. -/
def announceAckRule (b : Byte) (s : State) : State :=
  if b = Config.codeAck then { s with pc := .txData 0 0 } else enterHalt s

/-- `P_TX_ACK(p)` (44_session_encrypt_cycle.md R179): any byte but `ACK` has packet `p` sent again from its start. -/
def txAckRule (p : Fin 4) (b : Byte) (s : State) : State :=
  { s with pc := if b = Config.codeAck then Phase.afterTxPacket p else .txData p 0 }

/-- The decode table of 30_encoding.md R98: the effect of the consumed byte `b` in the phase the device is in; none where
the phase consumes nothing. -/
def receiveByte (b : Byte) (s : State) : Option State :=
  match s.pc with
  | .waitKey => some (waitFor Config.codeSendKey .keyAck1 b s)
  | .waitNonce => some (waitFor Config.codeSendNonce .nonceAck1 b s)
  | .waitEnc => some (waitFor Config.codeEncrypt .encAck b s)
  | .keyData n => some (keyDataRule n b s)
  | .nonceData n => some (nonceDataRule n b s)
  | .rxData p n => some (rxDataRule p n b s)
  | .rxCsum p => some (rxCsumRule p b s)
  | .announceAck => some (announceAckRule b s)
  | .txAck p => some (txAckRule p b s)
  | .keyAck1 | .keyAck2 | .nonceAck1 | .nonceAck2 | .encAck | .rxReply _ | .encrypt | .announce
  | .txData _ _ | .txCsum _ | .halt => none

/-- A control code that arrives from the host (30_encoding.md R98): what it does is the phase's to say, whichever code
it is; in a phase that consumes nothing it is not run. -/
def receiveCode (mnemonic : String) (code : Byte) (s : State) : Host.Outcome State Fault Refusal :=
  match receiveByte code s with
  | some s' => .next s'
  | none => .refused (.notSelected mnemonic)

/-! ### Phases of kind tx, and the internal step -/

/-- The acknowledgements that depend on nothing: `P_KEY_ACK1` (R152), `P_KEY_ACK2` (R154), `P_NONCE_ACK1` (R157),
`P_NONCE_ACK2` (R159), `P_ENC_ACK` (R167), and `P_RX_REPLY(p)` with `MATCH == 1` (R171). -/
def sendAck (next : Phase) (s : State) : Host.Outcome State Fault Refusal := sendThen Config.codeAck next s

/-- `P_RX_REPLY(p)` with `MATCH == 0` (44_session_encrypt_cycle.md R171): the packet is asked for again. -/
def sendNack (p : Fin 4) (s : State) : Host.Outcome State Fault Refusal :=
  sendThen Config.codeNack (.rxData p 0) s

/-- `P_ENCRYPT` (44_session_encrypt_cycle.md R172): one atomic step, always enabled; the block is encrypted under the
counter held before it. -/
def encryptRule (s : State) : State :=
  let r := encryptBlock s.cfg.sigma s.key s.nonce s.counter s.inBuf.block
  { s with outBuf := s.outBuf.writeBlock r.1, counter := r.2, pc := .announce }

/-- `P_ANNOUNCE` (44_session_encrypt_cycle.md R174). -/
def announceRule (s : State) : Host.Outcome State Fault Refusal :=
  sendThen Config.codeSendCipher .announceAck s

/-- `P_TX_DATA(p, n)` (44_session_encrypt_cycle.md R177). -/
def txDataRule (p : Fin 4) (n : Fin 16) (s : State) : Host.Outcome State Fault Refusal :=
  sendThen (s.outBuf.read (packetAddr p n.val)) (Phase.afterTxByte p n) s

/-- `P_TX_CSUM(p)` (44_session_encrypt_cycle.md R178). -/
def txCsumRule (p : Fin 4) (s : State) : Host.Outcome State Fault Refusal :=
  sendThen (packetCsum s.outBuf p) (.txAck p) s

end Sys2Proof.Machine
end

