-- ==== Sys2Proof/Machine/EncryptCycle.lean ====
section
/-! DEFINITION. The meanings of the transactions of the encrypt cycle (44_session_encrypt_cycle.md): `ENCRYPT`, `PACKET`
in its two directions, `SEND_CIPHER`, `ACK`, `NACK`. -/

namespace Sys2Proof.Machine

/-- `ENCRYPT` (44_session_encrypt_cycle.md R165): the code 0x15 starts a cycle in `P_WAIT_ENC` (R166); the cipher step it
ends in is `P_ENCRYPT`'s (R172); in every other phase that consumes a byte it is the byte 0x15 (30_encoding.md R98). -/
def execEncrypt (s : State) : Host.Outcome State Fault Refusal :=
  match s.pc with
  | .encrypt => .next (encryptRule s)
  | _ => receiveCode "ENCRYPT" Config.codeEncrypt s

/-- `SEND_CIPHER` (44_session_encrypt_cycle.md R173, R174): sent by the device in `P_ANNOUNCE` and nowhere else; a byte
0x15 that arrives is `ENCRYPT`'s (30_encoding.md R93). -/
def execSendCipher (s : State) : Host.Outcome State Fault Refusal :=
  match s.pc with
  | .announce => announceRule s
  | _ => .refused (.notSelected "SEND_CIPHER")

/-- `ACK` (44_session_encrypt_cycle.md R180): sent by the device in six places; consumed in every phase that consumes a
byte, with meaning in `P_ANNOUNCE_ACK` and `P_TX_ACK(p)`, discarded or data elsewhere (30_encoding.md R98). In
`P_RX_REPLY(p)` it is sent only when `MATCH == 1` (R171). -/
def execAck (s : State) : Host.Outcome State Fault Refusal :=
  match s.pc with
  | .keyAck1 => sendAck (.keyData 0) s
  | .keyAck2 => sendAck .waitNonce s
  | .nonceAck1 => sendAck (.nonceData 0) s
  | .nonceAck2 => sendAck .waitEnc s
  | .encAck => sendAck (.rxData 0 0) s
  | .rxReply p => if s.matchFlag then sendAck (Phase.afterRxPacket p) s else .refused (.notSelected "ACK")
  | _ => receiveCode "ACK" Config.codeAck s

/-- `NACK` (44_session_encrypt_cycle.md R181): sent by the device in `P_RX_REPLY(p)` when `MATCH == 0` (R171) and nowhere
else; consumed, it has no decoding of its own and does what any other byte that is not `ACK` does. -/
def execNack (s : State) : Host.Outcome State Fault Refusal :=
  match s.pc with
  | .rxReply p => if s.matchFlag then .refused (.notSelected "NACK") else sendNack p s
  | _ => receiveCode "NACK" Config.codeNack s

/-- `PACKET`, host to device (44_session_encrypt_cycle.md R168): its next payload byte (R169), or its checksum byte
(R170). Recognised by position. -/
def execPacketRx (b : Byte) (s : State) : Host.Outcome State Fault Refusal :=
  match s.pc with
  | .rxData p n => .next (rxDataRule p n b s)
  | .rxCsum p => .next (rxCsumRule p b s)
  | _ => .refused (.notSelected "PACKET_RX")

/-- `PACKET`, device to host (44_session_encrypt_cycle.md R176): its next payload byte (R177), or its checksum byte
(R178), both from `OUT`. -/
def execPacketTx (s : State) : Host.Outcome State Fault Refusal :=
  match s.pc with
  | .txData p n => txDataRule p n s
  | .txCsum p => txCsumRule p s
  | _ => .refused (.notSelected "PACKET_TX")

end Sys2Proof.Machine
end

