-- ==== Sys2Proof/Machine/Provisioning.lean ====
section
/-! DEFINITION. The meanings of the provisioning transactions (43_session_provisioning.md): `SEND_KEY`, `SEND_NONCE`,
`KEY_FRAME`, `NONCE_FRAME`. -/

namespace Sys2Proof.Machine

/-- `SEND_KEY` (43_session_provisioning.md R150, R151): the code 0x13 starts the key frame in `P_WAIT_KEY`; in every other
phase that consumes a byte it is the byte 0x13, with the effect 30_encoding.md R98 gives any byte there. -/
def execSendKey (s : State) : Host.Outcome State Fault Refusal := receiveCode "SEND_KEY" Config.codeSendKey s

/-- `SEND_NONCE` (43_session_provisioning.md R155, R156): the code 0x14, as `SEND_KEY` with `P_WAIT_NONCE`. -/
def execSendNonce (s : State) : Host.Outcome State Fault Refusal := receiveCode "SEND_NONCE" Config.codeSendNonce s

/-- `KEY_FRAME` (43_session_provisioning.md R153): the next byte of the key frame; any value is data. The frame is
recognised by position, so elsewhere there is no byte of it (30_encoding.md R91, R94). -/
def execKeyFrame (b : Byte) (s : State) : Host.Outcome State Fault Refusal :=
  match s.pc with
  | .keyData n => .next (keyDataRule n b s)
  | _ => .refused (.notSelected "KEY_FRAME")

/-- `NONCE_FRAME` (43_session_provisioning.md R158): the next byte of the nonce frame; any value is data. -/
def execNonceFrame (b : Byte) (s : State) : Host.Outcome State Fault Refusal :=
  match s.pc with
  | .nonceData n => .next (nonceDataRule n b s)
  | _ => .refused (.notSelected "NONCE_FRAME")

end Sys2Proof.Machine
end

