-- ==== Sys2Proof/Syntax.lean ====
section
/-! DEFINITION. The instructions of this hardware: the wire transactions of 30_encoding.md R91, one constructor per row
of spec/opcode_table.json (00_scope.md R2 says why a transaction is the instruction). -/

namespace Sys2Proof

/-- One constructor per row of spec/opcode_table.json. An instruction is executed one byte event at a time (00_scope.md
R17): the constructor says WHOSE byte event it is, and where the event consumes a byte of a positional frame (R91, code
"none"), that byte is the operand. The six control codes carry no operand (R88). Whether a code or a position selects an
instruction is decided by the phase alone (R98): that check is in WellFormed.lean (notes/assumptions/7.md). -/
inductive Instr where
  /-- `SEND_KEY`, 0x13, host to device (43_session_provisioning.md R150). -/
  | sendKey
  /-- `SEND_NONCE`, 0x14, host to device (43_session_provisioning.md R155). -/
  | sendNonce
  /-- `ENCRYPT`, 0x15, host to device, and the cipher step it ends in (44_session_encrypt_cycle.md R165, R172). -/
  | encrypt
  /-- `SEND_CIPHER`, 0x15, device to host (44_session_encrypt_cycle.md R173, R174). -/
  | sendCipher
  /-- `ACK`, 0xB1, either direction (44_session_encrypt_cycle.md R180). -/
  | ack
  /-- `NACK`, 0xC2, either direction (44_session_encrypt_cycle.md R181). -/
  | nack
  /-- `KEY_FRAME`: the next byte of the key frame (43_session_provisioning.md R153). -/
  | keyFrame (b : Byte)
  /-- `NONCE_FRAME`: the next byte of the nonce frame (43_session_provisioning.md R158). -/
  | nonceFrame (b : Byte)
  /-- `PACKET`, host to device: its next payload byte, or its checksum byte (44_session_encrypt_cycle.md R168). -/
  | packetRx (b : Byte)
  /-- `PACKET`, device to host: its next payload byte, or its checksum byte, taken from `OUT`
  (44_session_encrypt_cycle.md R176). -/
  | packetTx
  deriving DecidableEq, Repr

end Sys2Proof
end

