-- ==== Sys2Proof/Machine/Dispatch.lean ====
section
/-! DEFINITION. One arm per instruction, each one direct call of its meaning. -/

namespace Sys2Proof.Machine

def exec (i : Instr) (s : State) : Host.Outcome State Fault Refusal :=
  match i with
  | .sendKey => Sys2Proof.Machine.execSendKey s
  | .sendNonce => Sys2Proof.Machine.execSendNonce s
  | .encrypt => Sys2Proof.Machine.execEncrypt s
  | .sendCipher => Sys2Proof.Machine.execSendCipher s
  | .ack => Sys2Proof.Machine.execAck s
  | .nack => Sys2Proof.Machine.execNack s
  | .keyFrame b => Sys2Proof.Machine.execKeyFrame b s
  | .nonceFrame b => Sys2Proof.Machine.execNonceFrame b s
  | .packetRx b => Sys2Proof.Machine.execPacketRx b s
  | .packetTx => Sys2Proof.Machine.execPacketTx s

end Sys2Proof.Machine
end

