-- ==== Sys2Proof/WellFormed.lean ====
section
/-! DEFINITION. When a phase selects an instruction: the column "accepted or sent in" of the table of 30_encoding.md R91,
which spec/opcode_table.json repeats as "phases". On this hardware the phase is part of the selection (R94, R98), so an
instruction is well formed AT a phase (and, for the reply to a packet, at a value of `MATCH`). -/

namespace Sys2Proof

/-- `wellFormed ph m i`: in phase `ph`, with the match latch at `m`, the device's next byte event can be one of the
instruction `i` (30_encoding.md R91, column "accepted or sent in"; 44_session_encrypt_cycle.md R165 for the cipher step,
which `ENCRYPT` ends in). -/
def wellFormed (ph : Machine.Phase) (m : Bool) (i : Instr) : Bool :=
  match i, ph with
  | .sendKey, .waitKey => true
  | .sendNonce, .waitNonce => true
  | .encrypt, .waitEnc => true
  | .encrypt, .encrypt => true
  | .sendCipher, .announce => true
  | .ack, .keyAck1 => true
  | .ack, .keyAck2 => true
  | .ack, .nonceAck1 => true
  | .ack, .nonceAck2 => true
  | .ack, .encAck => true
  | .ack, .rxReply _ => m
  | .ack, .announceAck => true
  | .ack, .txAck _ => true
  | .nack, .rxReply _ => !m
  | .nack, .announceAck => true
  | .nack, .txAck _ => true
  | .keyFrame _, .keyData _ => true
  | .nonceFrame _, .nonceData _ => true
  | .packetRx _, .rxData _ _ => true
  | .packetRx _, .rxCsum _ => true
  | .packetTx, .txData _ _ => true
  | .packetTx, .txCsum _ => true
  | _, _ => false

end Sys2Proof
end

