-- ==== Sys2Proof/Decode.lean ====
section
/-! DEFINITION. The decoder and the encoder, at two grains: one byte event in a phase (30_encoding.md R98, the decode
table), which is what the machine's step reads; and one whole frame (R80 to R84). The decoder is total on any bytes and
rejects by name. The encoder is written from the same tables. -/

namespace Sys2Proof

open Machine (Phase bytesLEs takeWords bytesOfNat csum)

/-- Why no instruction was read. What the device does about each is in Machine/Fetch.lean. -/
inductive DecodeError where
  /-- The phase (or the frame) needs a byte that has not arrived: the device blocks (42_byte_transport.md R142). -/
  | incomplete
  /-- In a wait, a byte that is not the awaited code: discarded (30_encoding.md R98, R99). -/
  | strayByte (b : Byte)
  /-- Where one byte of reply decides, a byte that is neither `ACK` nor `NACK` (30_encoding.md R98, R100, R101). -/
  | notAReply (b : Byte)
  /-- A byte that is none of the five control codes, where a `CTRL` frame is read (30_encoding.md R81). -/
  | notAControlCode (b : Byte)
  /-- `P_HALT` reads nothing (60_exceptions.md R200). -/
  | halted
  /-- A phase in which the device itself acts consumes no byte (30_encoding.md R98): `decode` never answers with it. -/
  | notReceiving
  deriving DecidableEq, Repr

/-- The decode table of 30_encoding.md R98: the byte `b` consumed in a phase of kind rx. In a wait only the awaited code
is an instruction; in a data or checksum phase every byte belongs to the frame; where a reply is read, `ACK` and `NACK`
are (R91) and any other byte is rejected by name. A phase of another kind consumes nothing. -/
def decodeByte (ph : Phase) (b : Byte) : Except DecodeError Instr :=
  match ph with
  | .waitKey => if b = Config.codeSendKey then .ok .sendKey else .error (.strayByte b)
  | .waitNonce => if b = Config.codeSendNonce then .ok .sendNonce else .error (.strayByte b)
  | .waitEnc => if b = Config.codeEncrypt then .ok .encrypt else .error (.strayByte b)
  | .keyData _ => .ok (.keyFrame b)
  | .nonceData _ => .ok (.nonceFrame b)
  | .rxData _ _ => .ok (.packetRx b)
  | .rxCsum _ => .ok (.packetRx b)
  | .announceAck | .txAck _ =>
    if b = Config.codeAck then .ok .ack
    else if b = Config.codeNack then .ok .nack
    else .error (.notAReply b)
  | .halt => .error .halted
  | .keyAck1 | .keyAck2 | .nonceAck1 | .nonceAck2 | .encAck | .rxReply _ | .encrypt | .announce
  | .txData _ _ | .txCsum _ => .error .notReceiving

/-- The device's own byte events: in a tx or internal phase nothing is consumed and the phase alone (with `MATCH`, in
`P_RX_REPLY`) says which instruction the event belongs to (30_encoding.md R91, column "accepted or sent in"). -/
def ownInstr (ph : Phase) (m : Bool) : Option Instr :=
  match ph with
  | .keyAck1 | .keyAck2 | .nonceAck1 | .nonceAck2 | .encAck => some .ack
  | .rxReply _ => some (if m then .ack else .nack)
  | .encrypt => some .encrypt
  | .announce => some .sendCipher
  | .txData _ _ | .txCsum _ => some .packetTx
  | .waitKey | .keyData _ | .waitNonce | .nonceData _ | .waitEnc | .rxData _ _ | .rxCsum _ | .announceAck
  | .txAck _ | .halt => none

/-- Read the next instruction in phase `ph`, with the match latch at `m`, from the bytes waiting in `RX`, and what is left
of them. Total; every failure has a name. -/
def decode (ph : Phase) (m : Bool) (bytes : List Byte) : Except DecodeError (Instr × List Byte) :=
  match ownInstr ph m with
  | some i => .ok (i, bytes)
  | none =>
    match ph.kind with
    | .none => .error .halted
    | .rx | .tx | .internal =>
      match bytes with
      | [] => .error .incomplete
      | b :: rest =>
        match decodeByte ph b with
        | .ok i => .ok (i, rest)
        | .error e => .error e

/-- The one byte that carries an instruction when it is received (00_scope.md R9; 30_encoding.md R91): its control code,
or, for a byte of a positional frame, that byte. The two instructions the device sends and never receives have none. -/
def wireByte : Instr → Option Byte
  | .sendKey => some Config.codeSendKey
  | .sendNonce => some Config.codeSendNonce
  | .encrypt => some Config.codeEncrypt
  | .sendCipher => none
  | .ack => some Config.codeAck
  | .nack => some Config.codeNack
  | .keyFrame b => some b
  | .nonceFrame b => some b
  | .packetRx b => some b
  | .packetTx => none

/-- The words of an instruction as the decoder consumes them in phase `ph`: its one byte in a phase that receives, and
nothing in a phase where the device itself acts. -/
def encode (ph : Phase) (i : Instr) : List Byte :=
  match ph.kind with
  | .rx => (wireByte i).toList
  | .tx | .internal | .none => []

/-! ### Whole frames (30_encoding.md R80 to R84) -/

/-- The four frame formats of 30_encoding.md R80. -/
inductive Format where
  | ctrl
  | keyf
  | noncef
  | pkt
  deriving DecidableEq, Repr

/-- The length of a format in bytes (30_encoding.md R80). -/
def Format.length : Format → Nat
  | .ctrl => 1
  | .keyf => 32
  | .noncef => 8
  | .pkt => 17

/-- A frame with its fields (30_encoding.md R81 to R84). -/
inductive Frame where
  /-- `CTRL`: the code (R81). -/
  | ctrl (code : Byte)
  /-- `KEYF`: `key[0..7]` (R82). -/
  | keyf (key : Key)
  /-- `NONCEF`: `nonce_lo`, `nonce_hi` (R83). -/
  | noncef (nonce : Halves)
  /-- `PKT`: `w[0..3]` and the checksum byte (R84). The packet index is not in the frame. -/
  | pkt (w : Vector Word 4) (csum : Byte)
  deriving DecidableEq, Repr

/-- The format of a frame. -/
def Frame.format : Frame → Format
  | .ctrl _ => .ctrl
  | .keyf _ => .keyf
  | .noncef _ => .noncef
  | .pkt _ _ => .pkt

/-- The five values that are control codes (30_encoding.md R81). -/
def isControlCode (b : Byte) : Bool :=
  b == Config.codeSendKey || b == Config.codeSendNonce || b == Config.codeEncrypt || b == Config.codeAck
    || b == Config.codeNack

/-- Whether a frame's bytes can be read as its format: a `CTRL` frame only when its byte is a control code
(30_encoding.md R81), the others whatever their bytes. -/
def Frame.readable : Frame → Bool
  | .ctrl code => isControlCode code
  | .keyf _ => true
  | .noncef _ => true
  | .pkt _ _ => true

/-- A well-formed frame: one that can be read and, if it is a packet, ends in the checksum of its sixteen payload bytes
(30_encoding.md R84). A packet that is not well formed is a frame all the same: the device reads it, finds `MATCH` 0 and
asks for it again (44_session_encrypt_cycle.md R168, R170). -/
def Frame.wellFormed : Frame → Bool
  | .ctrl code => isControlCode code
  | .keyf _ => true
  | .noncef _ => true
  | .pkt w c => c == csum (bytesLEs w.toList)

/-- The bytes of a frame in link order (30_encoding.md R81 to R84): every word least significant byte first, the
checksum byte of a packet last. -/
def encodeFrame : Frame → List Byte
  | .ctrl code => [code]
  | .keyf key => bytesLEs key.toList
  | .noncef nonce => bytesLEs nonce.toList
  | .pkt w c => bytesLEs w.toList ++ [c]

/-- Read one frame of a format, and the bytes after it (30_encoding.md R80 to R84, R103: the end is found by counting). -/
def decodeFrame (f : Format) (bytes : List Byte) : Except DecodeError (Frame × List Byte) :=
  match f with
  | .ctrl =>
    match bytes with
    | [] => .error .incomplete
    | b :: rest => if isControlCode b then .ok (.ctrl b, rest) else .error (.notAControlCode b)
  | .keyf =>
    match takeWords 8 bytes with
    | some ([k0, k1, k2, k3, k4, k5, k6, k7], rest) => .ok (.keyf #v[k0, k1, k2, k3, k4, k5, k6, k7], rest)
    | _ => .error .incomplete
  | .noncef =>
    match takeWords 2 bytes with
    | some ([lo, hi], rest) => .ok (.noncef #v[lo, hi], rest)
    | _ => .error .incomplete
  | .pkt =>
    match takeWords 4 bytes with
    | some ([w0, w1, w2, w3], c :: rest) => .ok (.pkt #v[w0, w1, w2, w3] c, rest)
    | _ => .error .incomplete

/-! ### The words of spec/opcode_table.json -/

/-- The format of a word of the table. A word of one byte that is a control code is a `CTRL` row's. Every other row is
positional, with mask 0 (30_encoding.md R94): nothing in the word selects it, only how many bits the table gives it. The
true lengths are 64, 136 and 256 bits; the table's own fields give `NONCE_FRAME` two bytes, the packet rows three and
`KEY_FRAME` none. Every length is read as one of these frames, with zeros above (notes/assumptions/10.md). -/
def tableFormat (nbits w : Nat) : Option Format :=
  if nbits ≤ 8 then if nbits ≠ 0 ∧ isControlCode (BitVec.ofNat 8 w) = true then some .ctrl else some .keyf
  else if nbits ≤ 16 then some .noncef
  else if nbits ≤ 24 then some .pkt
  else if nbits ≤ 64 then some .noncef
  else if nbits ≤ 136 then some .pkt
  else if nbits ≤ 256 then some .keyf
  else none

/-- The bytes of a word of the table, in link order, zero above `nbits` up to the end of its frame (30_encoding.md R80:
a frame is one little-endian integer). -/
def tableBytes (nbits w : Nat) : List Byte :=
  match tableFormat nbits w with
  | some f => bytesOfNat f.length (w % 2 ^ nbits)
  | none => []

/-- A phase in which the first byte of the word of the table is that row's byte event (30_encoding.md R91, column
"accepted or sent in"): a request code in its wait, a reply where packet 0 awaits one, a frame at its first byte.
0x15 is read as `ENCRYPT`, the one of its two uses that a byte read can be (R93). -/
def tablePhase (nbits w : Nat) : Option Phase :=
  match tableFormat nbits w with
  | some .ctrl =>
    if BitVec.ofNat 8 w = Config.codeSendKey then some .waitKey
    else if BitVec.ofNat 8 w = Config.codeSendNonce then some .waitNonce
    else if BitVec.ofNat 8 w = Config.codeEncrypt then some .waitEnc
    else some (.txAck 0)
  | some .keyf => some (.keyData 0)
  | some .noncef => some (.nonceData 0)
  | some .pkt => some (.rxData 0 0)
  | none => none

/-- The instruction the decoder reads from a word of spec/opcode_table.json of `nbits` bits, bit 0 the least significant
bit of the first byte on the link. -/
def decodeTableWord (nbits w : Nat) : Option Instr :=
  match tablePhase nbits w with
  | none => none
  | some ph =>
    match decode ph false (tableBytes nbits w) with
    | .ok (i, _) => some i
    | .error _ => none

end Sys2Proof
end

