-- ==== Sys2Proof/Machine/Fetch.lean ====
section
/-! DEFINITION. Fetching the next instruction where the device reads it: at the head of `RX`, by the phase
(20_memory.md R59, R74). What is done with a byte that is no instruction is the phase's "all other" column of
30_encoding.md R98. -/

namespace Sys2Proof.Machine

/-- What a fetch finds. -/
inductive Fetched where
  /-- An instruction, and the state with its byte, if it has one, gone from `RX`. -/
  | instr (i : Instr) (s : State)
  /-- A byte that is no instruction in this phase has been consumed, and this is the state after the phase's reaction. -/
  | reacted (s : State)
  /-- No step is enabled. -/
  | stuck (f : Fault)
  deriving DecidableEq, Repr

/-- Decode at the head of `RX`. A rejected byte is consumed all the same (30_encoding.md R97, R100, R101): in a wait it is
discarded, where one byte of reply decides it halts the device or has the packet sent again (notes/assumptions/9.md). -/
def fetch (s : State) : Fetched :=
  match decode s.pc s.matchFlag s.rx with
  | .ok (i, rest) => .instr i { s with rx := rest }
  | .error .halted => .stuck .halted
  | .error _ =>
    match recvU8 s with
    | none => .stuck .stuckRx
    | some (b, s') =>
      match receiveByte b s' with
      | some s'' => .reacted s''
      | none => .stuck .stuckRx

/-- `s` with a word of spec/opcode_table.json where the fetch reads it: its bytes at the head of `RX`, and, if the phase
the device is in does not already select that instruction, a phase that does (notes/assumptions/10.md). -/
def placeWord (s : State) (nbits w : Nat) : State :=
  match decodeTableWord nbits w, tablePhase nbits w with
  | some i, some ph =>
    { s with rx := tableBytes nbits w ++ s.rx
             pc := if s.pc.kind = .rx ∧ wellFormed s.pc s.matchFlag i = true then s.pc else ph }
  | _, _ => { s with rx := tableBytes nbits w ++ s.rx }

end Sys2Proof.Machine
end

