-- ==== Sys2Proof/Machine/Step.lean ====
section
/-! DEFINITION. One step of the device (00_scope.md R17): one byte consumed, one byte sent, or the one internal
computation. It only fetches and dispatches; what can be mended is in Fetch.lean and the meanings. -/

namespace Sys2Proof.Machine

/-- One step: fetch by phase, then run the instruction; or take the phase's reaction to a byte that is none; or, when no
step is enabled, say which of the three ways of R17 it is. -/
def step (s : State) : Host.Outcome State Fault Refusal :=
  match fetch s with
  | .instr i s' => exec i s'
  | .reacted s' => .next s'
  | .stuck f => .fault f

/-- `s` with the instruction whose bits are `w` where the next step fetches it. -/
def State.withFetchWord (s : State) (nbits w : Nat) : State := placeWord s nbits w

end Sys2Proof.Machine
end

