-- ==== Sys2Proof/Machine/Environment.lean ====
section
/-! DEFINITION. The whole system as labelled transitions (00_scope.md R17, R18 item 1): the device's step, the two actions
of the host on the queues (42_byte_transport.md R141), and the environment's reset, enabled in every state
(70_reset_and_hazards.md R216). Nothing constrains the order the host and the environment act in: the device's rules are
total for every host (R224, 93_implementation_defined.md U16; notes/assumptions/15.md). -/

namespace Sys2Proof.Machine

/-- Who acts next, and with what. -/
inductive Action where
  /-- The device takes its step. -/
  | device
  /-- The host appends a byte to `RX` (42_byte_transport.md R141); a noisy link is a host that sends other bytes (R147). -/
  | hostSend (b : Byte)
  /-- The host removes the head of `TX`. -/
  | hostTake
  /-- The environment resets the device, which leaves its unspecified registers at any contents `u`
  (70_reset_and_hazards.md R215). -/
  | reset (u : ResetContents)
  deriving DecidableEq, Repr

/-- The state after an action, none where the action is not enabled: the device blocked or halted, the host facing a full
`RX` or an empty `TX`. -/
def act (a : Action) (s : State) : Option State :=
  match a with
  | .device =>
    match step s with
    | .next t => some t
    | .fault _ => none
    | .refused _ => none
  | .hostSend b => if s.rxRoom then some { s with rx := s.rx ++ [b] } else none
  | .hostTake =>
    match s.tx with
    | [] => none
    | _ :: rest => some { s with tx := rest }
  | .reset u => some (resetAction u s)

/-- A run of the system. -/
def acts : List Action → State → Option State
  | [], s => some s
  | a :: as, s =>
    match act a s with
    | some t => acts as t
    | none => none

end Sys2Proof.Machine
end

