-- ==== Sys2Proof/Machine/Events.lean ====
section
/-! DEFINITION. What can be seen of a step: its label on the link and whether it is enabled (00_scope.md R17), and the
protocol event it raises (60_exceptions.md R190). All are functions of the state before the step and none is stored
anywhere (R193). -/

namespace Sys2Proof.Machine

/-- The label of a step (00_scope.md R17). -/
inductive Label where
  | rx (b : Byte)
  | tx (b : Byte)
  | tau
  deriving DecidableEq, Repr

/-- The byte a tx phase sends (44_session_encrypt_cycle.md R171, R174, R177, R178, R180); the other phases send none. -/
def byteSent (s : State) : Option Byte :=
  match s.pc with
  | .keyAck1 | .keyAck2 | .nonceAck1 | .nonceAck2 | .encAck => some Config.codeAck
  | .rxReply _ => some (if s.matchFlag then Config.codeAck else Config.codeNack)
  | .announce => some Config.codeSendCipher
  | .txData p n => some (s.outBuf.read (packetAddr p n.val))
  | .txCsum p => some (packetCsum s.outBuf p)
  | .waitKey | .keyData _ | .waitNonce | .nonceData _ | .waitEnc | .rxData _ _ | .rxCsum _ | .encrypt
  | .announceAck | .txAck _ | .halt => none

/-- The label of the step the device takes next, none when no step is enabled (00_scope.md R17). -/
def label (s : State) : Option Label :=
  match s.pc.kind with
  | .rx => s.rx.head?.map Label.rx
  | .tx => if s.txRoom then (byteSent s).map Label.tx else none
  | .internal => some .tau
  | .none => none

/-- Whether the device's step is enabled (00_scope.md R17). -/
def State.enabled (s : State) : Bool :=
  match s.pc.kind with
  | .rx => !s.rx.isEmpty
  | .tx => s.txRoom
  | .internal => true
  | .none => false

/-- The four protocol events (60_exceptions.md R190). -/
inductive ProtocolEvent where
  | strayByte (b : Byte)
  | checksumMismatch (p : Fin 4)
  | peerReject (p : Fin 4) (b : Byte)
  | desync (b : Byte)
  deriving DecidableEq, Repr

/-- The spec's own numbering of the events, for a trace only (60_exceptions.md R190). -/
def ProtocolEvent.code : ProtocolEvent → Nat
  | .strayByte _ => 0
  | .checksumMismatch _ => 1
  | .peerReject _ _ => 2
  | .desync _ => 3

/-- Whether an event is fatal (60_exceptions.md R190): only `Desync` is. -/
def ProtocolEvent.fatal : ProtocolEvent → Bool
  | .desync _ => true
  | .strayByte _ | .checksumMismatch _ | .peerReject _ _ => false

/-- The event the next step raises, by the columns "raised in phase" and "condition" of 60_exceptions.md R190. -/
def raised (s : State) : Option ProtocolEvent :=
  match s.pc, s.rx with
  | .waitKey, b :: _ => if b = Config.codeSendKey then none else some (.strayByte b)
  | .waitNonce, b :: _ => if b = Config.codeSendNonce then none else some (.strayByte b)
  | .waitEnc, b :: _ => if b = Config.codeEncrypt then none else some (.strayByte b)
  | .rxCsum p, b :: _ => if b = packetCsum s.inBuf p then none else some (.checksumMismatch p)
  | .txAck p, b :: _ => if b = Config.codeAck then none else some (.peerReject p b)
  | .announceAck, b :: _ => if b = Config.codeAck then none else some (.desync b)
  | _, _ => none

end Sys2Proof.Machine
end

