-- ==== Sys2Proof/Machine/Run.lean ====
section
/-! DEFINITION. A run of the whole system (70_reset_and_hazards.md R225, R226, R231): what comes out of it, the ciphertext
blocks the host accepted; how it stands, complete, halted, stuck or going on; and the fault script of the link. All of it
belongs to the run and not to the device, which records nothing (10_state.md R39, 60_exceptions.md R193). -/

namespace Sys2Proof.Machine

/-- A run so far. -/
structure Run where
  /-- The state it has reached. -/
  state : State
  /-- The bytes the host has taken from `TX`, oldest first. -/
  taken : List Byte
  /-- The outputs (70_reset_and_hazards.md R225): the ciphertext blocks the host accepted, oldest first. -/
  outputs : List Block
  deriving DecidableEq, Repr

/-- A run that begins in a state (70_reset_and_hazards.md R225): nothing has come out yet. -/
def Run.start (s : State) : Run := { state := s, taken := [], outputs := [] }

/-- How many times `P_TX_ACK(3)` has accepted an `ACK` in the run: one block for each. -/
def Run.accepted (r : Run) : Nat := r.outputs.length

/-- Whether the device's next step is `P_TX_ACK(3)` accepting an `ACK`, the end of a block
(44_session_encrypt_cycle.md R179). -/
def State.acceptsBlock (s : State) : Bool :=
  decide (s.pc = .txAck 3) && decide (s.rx.head? = some Config.codeAck)

/-- The outputs after an action. With the `ACK` of packet 3 the host has accepted all four packets of the block, whose
payloads are the bytes of `OUT` (20_memory.md R54, 44_session_encrypt_cycle.md R186), so the block is `OUT`. A reset, which
ends the session and starts the next (70_reset_and_hazards.md R220), begins a new run (notes/assumptions/22.md). -/
def Run.outputsAfter (a : Action) (r : Run) : List Block :=
  match a with
  | .device => if r.state.acceptsBlock then r.outputs ++ [r.state.outBuf.block] else r.outputs
  | .hostSend _ => r.outputs
  | .hostTake => r.outputs
  | .reset _ => []

/-- The bytes the host has taken after an action. -/
def Run.takenAfter (a : Action) (r : Run) : List Byte :=
  match a with
  | .device => r.taken
  | .hostSend _ => r.taken
  | .hostTake => r.taken ++ r.state.tx.take 1
  | .reset _ => []

/-- One action of a run, none where it is not enabled. -/
def Run.act (a : Action) (r : Run) : Option Run :=
  match Sys2Proof.Machine.act a r.state with
  | some t => some { state := t, taken := r.takenAfter a, outputs := r.outputsAfter a }
  | none => none

/-- A run continued by a list of actions. -/
def Run.acts : List Action → Run → Option Run
  | [], r => some r
  | a :: as, r =>
    match r.act a with
    | some r' => Run.acts as r'
    | none => none

/-- How a run stands (70_reset_and_hazards.md R226, 93_implementation_defined.md U8, U9). -/
inductive RunStatus where
  /-- The run of `m` blocks has succeeded: `P_WAIT_ENC`, both queues empty, the `m`-th block accepted. -/
  | complete
  /-- `P_HALT`: a failed run. -/
  | halted
  /-- The device is blocked as things stand, in a phase that has a step, and the run is not complete. -/
  | stuck
  /-- A step is enabled. -/
  | running
  deriving DecidableEq, Repr

/-- The final-state predicate of a successful run of `m` blocks (70_reset_and_hazards.md R226): the device is in
`P_WAIT_ENC` with `RX` and `TX` empty after the `m`-th `P_TX_ACK(3)` accepted an `ACK`. There is no such event for
`m = 0`, so a run that has only been provisioned is not complete (notes/assumptions/22.md). -/
def Run.completes (m : Nat) (r : Run) : Bool :=
  decide (r.state.pc = .waitEnc) && r.state.rx.isEmpty && r.state.tx.isEmpty && decide (1 ≤ m) && decide (r.accepted = m)

/-- The status of a run of `m` blocks (70_reset_and_hazards.md R226, R231). -/
def runStatus (m : Nat) (r : Run) : RunStatus :=
  if r.completes m then .complete
  else if r.state.pc = .halt then .halted
  else if r.state.enabled then .running
  else .stuck

/-! ### The fault script of the link (70_reset_and_hazards.md R225) -/

/-- What the link does at one place in a stream of bytes, in either direction (42_byte_transport.md R147,
70_reset_and_hazards.md R232, R233, R235). -/
inductive LinkFault where
  /-- The next byte arrives as it was sent. -/
  | pass
  /-- The next byte arrives as `b`. -/
  | corrupt (b : Byte)
  /-- The next byte is lost. -/
  | drop
  /-- The byte `b`, which nobody sent, arrives before the next one. -/
  | insert (b : Byte)
  deriving DecidableEq, Repr

/-- The bytes that arrive when `bytes` are sent over a link with a fault script; after the script the link is clean. From
host to device they are what enters `RX`, from device to host they are what the host sees of what it takes from `TX`. -/
def deliver : List LinkFault → List Byte → List Byte
  | [], bytes => bytes
  | .insert x :: fs, bytes => x :: deliver fs bytes
  | .pass :: fs, [] => deliver fs []
  | .corrupt _ :: fs, [] => deliver fs []
  | .drop :: fs, [] => deliver fs []
  | .pass :: fs, b :: bytes => b :: deliver fs bytes
  | .corrupt x :: fs, _ :: bytes => x :: deliver fs bytes
  | .drop :: fs, _ :: bytes => deliver fs bytes

end Sys2Proof.Machine
end

