-- ==== Sys2Proof/Machine/Transcript.lean ====
section
/-! DEFINITION. Transcripts and the macro-transactions (30_encoding.md R105, R106): what a clean exchange looks like on
the link, and what it means that the device has one. -/

namespace Sys2Proof.Machine

/-- A transcript (30_encoding.md R105): the device's own steps in their order, `H>` bytes as `rx`, `D>` bytes as `tx`. -/
abbrev Transcript := List Label

/-- The `H>` bytes of a transcript. -/
def hostBytes : Transcript → List Byte
  | [] => []
  | .rx b :: t => b :: hostBytes t
  | .tx _ :: t => hostBytes t
  | .tau :: t => hostBytes t

/-- The `D>` bytes of a transcript. -/
def deviceBytes : Transcript → List Byte
  | [] => []
  | .rx _ :: t => deviceBytes t
  | .tx b :: t => b :: deviceBytes t
  | .tau :: t => deviceBytes t

/-- `H>` a list of bytes. -/
def fromHost (bs : List Byte) : Transcript := bs.map Label.rx

/-- `D>` a list of bytes. -/
def toHost (bs : List Byte) : Transcript := bs.map Label.tx

/-- Run the device along a transcript: every step it takes carries the next label. None if it blocks, halts, or does
something else. -/
def replay : Transcript → State → Option State
  | [], s => some s
  | l :: t, s =>
    match step s with
    | .next s' => if label s = some l then replay t s' else none
    | .fault _ => none
    | .refused _ => none

/-- The seventeen bytes of packet `p` of a block: `bytes_le` of its four words, then their `CSUM` (30_encoding.md R106,
`pk(F, p)`). -/
def packetBytes (F : Block) (p : Fin 4) : List Byte :=
  let d := bytesLEs [F[4 * p.val], F[4 * p.val + 1], F[4 * p.val + 2], F[4 * p.val + 3]]
  d ++ [csum d]

/-- `PROVISION_KEY(key)` (30_encoding.md R106). -/
def provisionKey (key : Key) : Transcript :=
  fromHost [Config.codeSendKey] ++ toHost [Config.codeAck] ++ fromHost (bytesLEs key.toList) ++ toHost [Config.codeAck]

/-- `PROVISION_NONCE(nonce)` (30_encoding.md R106). -/
def provisionNonce (nonce : Halves) : Transcript :=
  fromHost [Config.codeSendNonce] ++ toHost [Config.codeAck] ++ fromHost (bytesLEs nonce.toList) ++ toHost [Config.codeAck]

/-- One plaintext packet and the reply that accepts it. -/
def putPacket (F : Block) (p : Fin 4) : Transcript := fromHost (packetBytes F p) ++ toHost [Config.codeAck]

/-- One ciphertext packet and the reply that accepts it. -/
def getPacket (F : Block) (p : Fin 4) : Transcript := toHost (packetBytes F p) ++ fromHost [Config.codeAck]

/-- `PUT_BLOCK(pt)` (30_encoding.md R106). -/
def putBlock (pt : Block) : Transcript :=
  fromHost [Config.codeEncrypt] ++ toHost [Config.codeAck] ++ putPacket pt 0 ++ putPacket pt 1 ++ putPacket pt 2 ++ putPacket pt 3

/-- `GET_BLOCK() -> ct` (30_encoding.md R106). -/
def getBlock (ct : Block) : Transcript :=
  toHost [Config.codeSendCipher] ++ fromHost [Config.codeAck] ++ getPacket ct 0 ++ getPacket ct 1 ++ getPacket ct 2 ++ getPacket ct 3

/-- `ENCRYPT_BLOCK_CYCLE(pt) -> ct` (30_encoding.md R106). -/
def encryptCycle (pt ct : Block) : Transcript := putBlock pt ++ [Label.tau] ++ getBlock ct

/-- The cycles of a session that is at counter `ctr`: block `k` is encrypted under `ctr + k` (30_encoding.md R106,
44_session_encrypt_cycle.md R182). -/
def cycles (sigma : Vector Word 4) (key : Key) (nonce : Halves) : Halves → List Block → Transcript
  | _, [] => []
  | ctr, pt :: pts =>
    encryptCycle pt (encryptBlock sigma key nonce ctr pt).1 ++ cycles sigma key nonce (incCounter ctr) pts

/-- `SESSION(key, nonce, pt_0, ..., pt_m)` after the reset (30_encoding.md R106), from counter `ctr`. -/
def session (sigma : Vector Word 4) (key : Key) (nonce ctr : Halves) (pts : List Block) : Transcript :=
  provisionKey key ++ provisionNonce nonce ++ cycles sigma key nonce ctr pts

end Sys2Proof.Machine
end

