-- ==== Sys2Proof/Safety.lean ====
section
/-! DEFINITION. The terms claims are made in: when a state is well formed, the transition graph of the phases (10_state.md R33), what is fixed once a session is provisioned (R24), and when
two states differ only in what reset left unspecified (R219). -/

namespace Sys2Proof.Machine

/-- Whether a queue of this length fits a depth (00_scope.md R8). -/
def fits (depth : Option Nat) (len : Nat) : Bool :=
  match depth with
  | none => true
  | some d => len ≤ d

/-- A well-formed state: both buffers in canonical form, both queues within their depths. -/
def State.wf (s : State) : Bool :=
  s.inBuf.wf && s.outBuf.wf && fits s.cfg.rxDepth s.rx.length && fits s.cfg.txDepth s.tx.length

/-- The transition graph of 10_state.md R33: the phase after a step in phase `ph` that consumes `b` (if it consumes a
byte) with `MATCH` at `m`; none in `P_HALT`. Written from R33, which is a summary, not from the phase rules. -/
def graph (ph : Phase) (b : Byte) (m : Bool) : Option Phase :=
  match ph with
  | .waitKey => some (if b = 0x13 then .keyAck1 else .waitKey)
  | .keyAck1 => some (.keyData 0)
  | .keyData n => some (if n = 31 then .keyAck2 else .keyData (n + 1))
  | .keyAck2 => some .waitNonce
  | .waitNonce => some (if b = 0x14 then .nonceAck1 else .waitNonce)
  | .nonceAck1 => some (.nonceData 0)
  | .nonceData n => some (if n = 7 then .nonceAck2 else .nonceData (n + 1))
  | .nonceAck2 => some .waitEnc
  | .waitEnc => some (if b = 0x15 then .encAck else .waitEnc)
  | .encAck => some (.rxData 0 0)
  | .rxData p n => some (if n = 15 then .rxCsum p else .rxData p (n + 1))
  | .rxCsum p => some (.rxReply p)
  | .rxReply p => some (if m = false then .rxData p 0 else if p = 3 then .encrypt else .rxData (p + 1) 0)
  | .encrypt => some .announce
  | .announce => some .announceAck
  | .announceAck => some (if b = 0xB1 then .txData 0 0 else .halt)
  | .txData p n => some (if n = 15 then .txCsum p else .txData p (n + 1))
  | .txCsum p => some (.txAck p)
  | .txAck p => some (if b ≠ 0xB1 then .txData p 0 else if p = 3 then .waitEnc else .txData (p + 1) 0)
  | .halt => none

/-- The edges between the source's named states (10_state.md R33, last paragraph). -/
def sessionEdge : SessionState → SessionState → Bool
  | .awaitingKey, .awaitingNonce => true
  | .awaitingNonce, .ready => true
  | .ready, .receivingBlock p => p == 0
  | .receivingBlock p, .receivingBlock q => q.val == p.val + 1
  | .receivingBlock p, .encrypting => p == 3
  | .encrypting, .sendingBlock p => p == 0
  | .encrypting, .faulted => true
  | .sendingBlock p, .sendingBlock q => q.val == p.val + 1
  | .sendingBlock p, .ready => p == 3
  | _, _ => false

/-- The phases after provisioning (43_session_provisioning.md R160): `Ready` and everything reached from it. -/
def Phase.provisioned : Phase → Bool
  | .waitKey | .keyAck1 | .keyData _ | .keyAck2 | .waitNonce | .nonceAck1 | .nonceData _ | .nonceAck2 => false
  | .waitEnc | .encAck | .rxData _ _ | .rxCsum _ | .rxReply _ | .encrypt | .announce | .announceAck
  | .txData _ _ | .txCsum _ | .txAck _ | .halt => true

/-- A span with bit `i mod 8` of byte `i div 8` flipped: a one-bit error pattern (40_checksum.md R117). -/
def flipBit (s : List Byte) (i : Nat) : List Byte :=
  s.modify (i / 8) (fun b => b ^^^ ((1 : Byte) <<< (i % 8)))

/-! ### What has been written since reset (70_reset_and_hazards.md R219) -/

/-- How many bytes of the key frame have been stored when the device is in a phase. -/
def Phase.keyBytes : Phase → Nat
  | .waitKey | .keyAck1 => 0
  | .keyData n => n.val
  | _ => 32

/-- How many bytes of the nonce frame have been stored when the device is in a phase. -/
def Phase.nonceBytes : Phase → Nat
  | .waitKey | .keyAck1 | .keyData _ | .keyAck2 | .waitNonce | .nonceAck1 => 0
  | .nonceData n => n.val
  | _ => 8

/-- How many bytes of `IN`, from address 0, have been stored in the present cycle when the device is in a phase. -/
def Phase.inBytes : Phase → Nat
  | .rxData p n => packetAddr p n.val
  | .rxCsum p | .rxReply p => packetAddr p 16
  | .encrypt => 64
  | _ => 0

/-- Whether `OUT` holds the block of the present cycle when the device is in a phase. -/
def Phase.outWritten : Phase → Bool
  | .announce | .announceAck | .txData _ _ | .txCsum _ | .txAck _ => true
  | _ => false

/-- Whether `MATCH` holds the comparison of the present packet when the device is in a phase. -/
def Phase.matchWritten : Phase → Bool
  | .rxReply _ => true
  | _ => false

/-- Two states of the same device, equal in everything but the contents of registers that no step has written since reset
(70_reset_and_hazards.md R219, the table's second and third columns). -/
def sameButUnwritten (s t : State) : Prop :=
  s.cfg = t.cfg ∧ s.counter = t.counter ∧ s.pc = t.pc ∧ s.rx = t.rx ∧ s.tx = t.tx
    ∧ (∀ n : Fin 32, n.val < s.pc.keyBytes → fileByte (k := 8) s.key n = fileByte (k := 8) t.key n)
    ∧ (∀ n : Fin 8, n.val < s.pc.nonceBytes → fileByte (k := 2) s.nonce n = fileByte (k := 2) t.nonce n)
    ∧ (∀ a : Nat, a < s.pc.inBytes → s.inBuf.read a = t.inBuf.read a)
    ∧ (s.pc.outWritten = true → ∀ a : Nat, a < 64 → s.outBuf.read a = t.outBuf.read a)
    ∧ (s.pc.matchWritten = true → s.matchFlag = t.matchFlag)

/-- Two outcomes that a host cannot tell apart and that stay so: both go on, to states equal but for what is unwritten,
or both stop for the same reason. -/
def sameOutcome (x y : Host.Outcome State Fault Refusal) : Prop :=
  match x, y with
  | .next s, .next t => sameButUnwritten s t
  | .fault f, .fault g => f = g
  | .refused r, .refused q => r = q
  | _, _ => False

end Sys2Proof.Machine
end

