-- ==== Sys2Proof/Certificates/Slice0/Obligations.lean ====
section
/-! DEFINITION. The statements for the provers. Each says which rules of spec/ it formalises; OBLIGATIONS.json lists them.
Statements about a step from every state hold of every choice of the parameters of `Config`, which the state carries. -/

open Sys2Proof Sys2Proof.Machine

/-! ### Decoding and encoding -/

/-- A few words written out from 00_scope.md R9 and 30_encoding.md R91: each control code, in a phase that awaits it, is
the transaction it stands for, and a data byte of the same value is data (20_memory.md R75). A byte that a wait discards
is no instruction of the model (notes/assumptions/9.md). -/
def Obligations.ControlCodesDecodeByPhase : Prop :=
  ∀ (m : Bool) (p : Fin 4) (n : Fin 16) (rest : List Byte),
    decode .waitKey m (0x13 :: rest) = .ok (.sendKey, rest)
    ∧ decode .waitNonce m (0x14 :: rest) = .ok (.sendNonce, rest)
    ∧ decode .waitEnc m (0x15 :: rest) = .ok (.encrypt, rest)
    ∧ decode .announceAck m (0xB1 :: rest) = .ok (.ack, rest)
    ∧ decode (.txAck p) m (0xC2 :: rest) = .ok (.nack, rest)
    ∧ decode (.rxData p n) m (0x15 :: rest) = .ok (.packetRx 0x15, rest)
    ∧ decode .waitKey m (0x14 :: rest) = .error (.strayByte 0x14)

/-- Every instruction that a phase selects is read back from its own words, whatever follows them. -/
def Obligations.DecodeOfEncodeIsIdentity : Prop :=
  ∀ (ph : Phase) (m : Bool) (i : Instr) (rest : List Byte), wellFormed ph m i = true →
    decode ph m (encode ph i ++ rest) = .ok (i, rest)

/-- The other direction: what the decoder accepts is selected by the phase, and the bytes it took are that
instruction's words. -/
def Obligations.DecodeAcceptsOnlyEncodings : Prop :=
  ∀ (ph : Phase) (m : Bool) (bytes rest : List Byte) (i : Instr), decode ph m bytes = .ok (i, rest) →
    wellFormed ph m i = true ∧ bytes = encode ph i ++ rest

/-- Where the decoder finds no INSTRUCTION, and under which name: a byte in a wait that is not the awaited code, a reply that
is neither code, anything in the halt, and nothing else; a missing byte exactly in the phases of kind rx. The hardware's
decoding is total (30_encoding.md R95) and gives 0xC2 no decoding of its own (R98): that these bytes are no instruction of
the model, and that among the 255 bytes that are not `ACK` only 0xC2 is one (`NACK`, where R91 lists it), is the model's
choice (notes/assumptions/9.md), and so are the names `incomplete` and `halted` (notes/assumptions/6.md). What the step
does with such a byte is R99, R100 and R101, in the other statements. -/
def Obligations.DecodeRejectsExactlyByName : Prop :=
  ∀ (ph : Phase) (m : Bool),
    (decode ph m [] = .error .incomplete ↔ ph.kind = .rx)
    ∧ ∀ (b : Byte) (rest : List Byte) (e : DecodeError), decode ph m (b :: rest) = .error e ↔
      (((ph = .waitKey ∧ b ≠ 0x13) ∨ (ph = .waitNonce ∧ b ≠ 0x14) ∨ (ph = .waitEnc ∧ b ≠ 0x15)) ∧ e = .strayByte b)
      ∨ ((ph = .announceAck ∨ ∃ p, ph = .txAck p) ∧ b ≠ 0xB1 ∧ b ≠ 0xC2 ∧ e = .notAReply b)
      ∨ (ph = .halt ∧ e = .halted)

/-- A whole frame is read back from its bytes, a packet with any checksum byte (30_encoding.md R80 to R84). -/
def Obligations.FrameDecodeOfEncodeIsIdentity : Prop :=
  ∀ (f : Frame) (rest : List Byte), f.readable = true →
    decodeFrame f.format (encodeFrame f ++ rest) = .ok (f, rest)

/-- What a frame is read from is its bytes: no bit of the frame is dropped. A packet read so is well formed exactly when its
last byte is the checksum of the sixteen before it (30_encoding.md R84), and every other frame read is well formed. -/
def Obligations.FrameDecodeAcceptsOnlyEncodings : Prop :=
  ∀ (fmt : Format) (f : Frame) (bytes rest : List Byte), decodeFrame fmt bytes = .ok (f, rest) →
    f.format = fmt ∧ f.readable = true ∧ bytes = encodeFrame f ++ rest ∧ (encodeFrame f).length = fmt.length
    ∧ (fmt ≠ .pkt → f.wellFormed = true)
    ∧ (fmt = .pkt → (f.wellFormed = true ↔ bytes[16]? = some (csum (bytes.take 16))))

/-- 20_memory.md R51: the lanes are the slices, assembling them gives the word back, and a list of words crosses word by
word. -/
def Obligations.WordsAndBytesAgree : Prop :=
  (∀ (w : Word) (k i : Nat), k < 4 → i < 8 → (getLane w k).getLsbD i = w.getLsbD (8 * k + i))
  ∧ (∀ w : Word, bytesLE w = [getLane w 0, getLane w 1, getLane w 2, getLane w 3])
  ∧ (∀ (b0 b1 b2 b3 : Byte) (i : Nat), i < 8 →
      (wordLE b0 b1 b2 b3).getLsbD i = b0.getLsbD i ∧ (wordLE b0 b1 b2 b3).getLsbD (8 + i) = b1.getLsbD i
      ∧ (wordLE b0 b1 b2 b3).getLsbD (16 + i) = b2.getLsbD i ∧ (wordLE b0 b1 b2 b3).getLsbD (24 + i) = b3.getLsbD i)
  ∧ (∀ w : Word, wordLE (getLane w 0) (getLane w 1) (getLane w 2) (getLane w 3) = w)
  ∧ (∀ (w : Word) (ws : List Word), bytesLEs (w :: ws) = bytesLE w ++ bytesLEs ws)

/-- The byte view and the word view of a buffer are one storage (00_scope.md R14, 10_state.md R43): writing a byte is
writing its lane of its word. -/
def Obligations.BufferBytesAreWordLanes : Prop :=
  ∀ (m : Memory) (n : Fin 64) (b : Byte),
    (m.write n.val b).block = setFileByte (k := 16) m.block n b
    ∧ m.read n.val = fileByte (k := 16) m.block n

/-! ### The checksum -/

/-- 40_checksum.md R114: the equivalent form. -/
def Obligations.ChecksumByteFormsAgree : Prop :=
  ∀ c x : Byte, csumByte c x = csumByteAlt c x ∧ csumByte c x = csum [c ^^^ x]

/-- 40_checksum.md R115: linearity, over spans of one length. -/
def Obligations.ChecksumIsLinear : Prop :=
  ∀ s t : List Byte, s.length = t.length →
    csum (List.zipWith (fun a b => a ^^^ b) s t) = csum s ^^^ csum t

/-- 40_checksum.md R116: a span followed by a byte has checksum zero exactly when the byte is the span's own checksum, so
running all seventeen bytes of a packet through `CSUM` accepts the packets that comparing accepts. -/
def Obligations.ChecksumOfSpanAndChecksumIsZero : Prop :=
  ∀ (s : List Byte) (c : Byte), csum (s ++ [c]) = 0x00 ↔ c = csum s

/-- 40_checksum.md R117: every one-bit error in a sixteen-byte span shows, and of the two-bit errors all but one. -/
def Obligations.ChecksumDetectsErrors : Prop :=
  ∀ s : List Byte, s.length = 16 →
    (∀ i : Nat, i < 128 → csum (flipBit s i) ≠ csum s)
    ∧ (∀ i j : Nat, i < j → j < 128 → (csum (flipBit (flipBit s i) j) = csum s ↔ i = 0 ∧ j = 127))

/-! ### The cipher core -/

/-- 41_cipher_core.md R120: bit `i` of the rotation is bit `(i - n) mod 32` of the word. -/
def Obligations.RotationMovesBits : Prop :=
  ∀ (a : Word) (n i : Nat), i < 32 → (rotl a n).getLsbD i = a.getLsbD ((i + (32 - n % 32)) % 32)

/-- 41_cipher_core.md R122: the quarter-round has a two-sided inverse, the one the rule gives. -/
def Obligations.QuarterRoundIsBijective : Prop :=
  ∀ a b c d : Word,
    qrInverse (qr a b c d).1 (qr a b c d).2.1 (qr a b c d).2.2.1 (qr a b c d).2.2.2 = (a, b, c, d)
    ∧ qr (qrInverse a b c d).1 (qrInverse a b c d).2.1 (qrInverse a b c d).2.2.1 (qrInverse a b c d).2.2.2 = (a, b, c, d)

/-- 41_cipher_core.md R122: each round, and any number of double-rounds, is a permutation of the blocks. -/
def Obligations.RoundsArePermutations : Prop :=
  Function.Bijective columnRound ∧ Function.Bijective rowRound ∧ Function.Bijective doubleRound
    ∧ ∀ k : Nat, Function.Bijective (doubleRounds k)

/-- 41_cipher_core.md R128: the four quarter-rounds of a round can run in any order. -/
def Obligations.QuarterRoundsOfARoundCommute : Prop :=
  ∀ (X : Block) (l : List (Fin 16 × Fin 16 × Fin 16 × Fin 16)),
    (l.Perm Config.cols → l.foldl qrAt X = columnRound X)
    ∧ (l.Perm Config.rows → l.foldl qrAt X = rowRound X)

/-- 41_cipher_core.md R132: the counter is incremented as one 64-bit value, modulo 2^64. That it wraps is the spec's own
decision D14, not its source's (notes/assumptions/13.md). -/
def Obligations.CounterIncrementsAsOneValue : Prop :=
  ∀ C : Halves, join64 (incCounter C) = join64 C + 1
    ∧ (C[0] = 0xFFFFFFFF → (incCounter C)[0] = 0 ∧ (incCounter C)[1] = C[1] + 1)
    ∧ (C[0] ≠ 0xFFFFFFFF → (incCounter C)[0] = C[0] + 1 ∧ (incCounter C)[1] = C[1])

/-- 41_cipher_core.md R134: encrypting twice under one counter gives the plaintext back, for every `SIGMA`. -/
def Obligations.DecryptionUndoesEncryption : Prop :=
  ∀ (sigma : Vector Word 4) (K : Key) (N C : Halves) (P : Block),
    (decryptBlock sigma K N C (encryptBlock sigma K N C P).1).1 = P

/-- 20_memory.md R54: on the link, ciphertext bytes are plaintext bytes exclusive-or the bytes of the keystream. -/
def Obligations.CiphertextBytesAreXorOfKeystreamBytes : Prop :=
  ∀ (sigma : Vector Word 4) (K : Key) (N C : Halves) (P : Block),
    bytesLEs (encryptBlock sigma K N C P).1.toList
      = List.zipWith (fun a b => a ^^^ b) (bytesLEs (keystream (build sigma K N C)).toList) (bytesLEs P.toList)

/-! ### The step -/

/-- A step runs the decoded instruction: when the bytes at the head of `RX` decode in the present phase, the step is
`exec` of that instruction on the state with its byte, if it has one, gone from `RX`. -/
def Obligations.StepRunsDecodedInstruction : Prop :=
  ∀ (s : State) (i : Instr) (rest : List Byte), decode s.pc s.matchFlag s.rx = .ok (i, rest) →
    step s = exec i { s with rx := rest }

/-- 00_scope.md R17: a step is taken exactly when the phase's kind of step is enabled; otherwise the outcome says which
of the three ways of blocking it is; the machine's step never refuses. -/
def Obligations.StepIsTakenExactlyWhenEnabled : Prop :=
  ∀ s : State,
    ((∃ t, step s = .next t) ↔ s.enabled = true)
    ∧ (step s = .fault .stuckRx ↔ s.pc.kind = .rx ∧ s.rx = [])
    ∧ (step s = .fault .stuckTx ↔ s.pc.kind = .tx ∧ s.txRoom = false)
    ∧ (step s = .fault .halted ↔ s.pc = .halt)
    ∧ ∀ r, step s ≠ .refused r

/-- 00_scope.md R17, 20_memory.md R62: what a step does to the queues is its label: one byte off the head of `RX`, or one
byte onto the tail of `TX`, or neither, and the kind of label is the phase's. -/
def Obligations.StepCarriesItsLabel : Prop :=
  ∀ s t : State, step s = .next t →
    (s.pc.kind = .rx ∧ ∃ b, label s = some (.rx b) ∧ s.rx = b :: t.rx ∧ t.tx = s.tx)
    ∨ (s.pc.kind = .tx ∧ ∃ b, label s = some (.tx b) ∧ t.tx = s.tx ++ [b] ∧ t.rx = s.rx)
    ∨ (s.pc.kind = .internal ∧ label s = some .tau ∧ t.rx = s.rx ∧ t.tx = s.tx)

/-- 10_state.md R33: the phase after a step is the one the transition graph gives. -/
def Obligations.PhasesFollowTheGraph : Prop :=
  ∀ s t : State, step s = .next t → graph s.pc (s.rx.headD 0) s.matchFlag = some t.pc

/-- 10_state.md R32 (the assignment of phases to states is the spec's decision D8, notes/assumptions/16.md) and R33, last
paragraph: a step keeps the SessionState or follows an edge of the source's state machine;
nothing leaves `Faulted`, and nothing leads back to `AwaitingKey`. -/
def Obligations.SessionStatesFollowTheirEdges : Prop :=
  ∀ s t : State, step s = .next t →
    t.pc.sessionState = s.pc.sessionState ∨ sessionEdge s.pc.sessionState t.pc.sessionState = true

/-! ### The phases, rule by rule -/

/-- The three scans: 43_session_provisioning.md R151, R156, 44_session_encrypt_cycle.md R166. -/
def Obligations.WaitsTakeOnlyTheirCode : Prop :=
  ∀ (s : State) (b : Byte) (rest : List Byte) (ph next : Phase) (code : Byte),
    (ph, code, next) ∈ [(Phase.waitKey, (0x13 : Byte), Phase.keyAck1), (.waitNonce, 0x14, .nonceAck1),
      (.waitEnc, 0x15, .encAck)] →
    s.pc = ph → s.rx = b :: rest →
    (b = code → step s = .next { s with rx := rest, pc := next } ∧ raised s = none)
    ∧ (b ≠ code → step s = .next { s with rx := rest } ∧ raised s = some (.strayByte b))

/-- The meanings of the three request codes in the phases that accept them (R150, R155, R165, "accepted only in"). -/
def Obligations.RequestCodesStartTheirTransactions : Prop :=
  ∀ s : State,
    (s.pc = .waitKey → exec .sendKey s = .next { s with pc := .keyAck1 })
    ∧ (s.pc = .waitNonce → exec .sendNonce s = .next { s with pc := .nonceAck1 })
    ∧ (s.pc = .waitEnc → exec .encrypt s = .next { s with pc := .encAck })

/-- 30_encoding.md R98, 44_session_encrypt_cycle.md R180, R181: a control code that arrives in a phase of kind rx is a
byte like any other there: it is run, with the effect that phase gives its value. -/
def Obligations.ControlCodesRunInEveryReceivingPhase : Prop :=
  ∀ (s : State) (i : Instr) (code : Byte),
    (i, code) ∈ [(Instr.sendKey, (0x13 : Byte)), (.sendNonce, 0x14), (.encrypt, 0x15), (.ack, 0xB1), (.nack, 0xC2)] →
    s.pc.kind = .rx →
    exec i s = step { s with rx := code :: s.rx } ∧ ∃ t, exec i s = .next t

/-- The five unconditional acknowledgements: 43_session_provisioning.md R152, R154, R157, R159,
44_session_encrypt_cycle.md R167. -/
def Obligations.AcknowledgementsAreUnconditional : Prop :=
  ∀ (s : State) (ph next : Phase),
    (ph, next) ∈ [(Phase.keyAck1, Phase.keyData 0), (.keyAck2, .waitNonce), (.nonceAck1, .nonceData 0),
      (.nonceAck2, .waitEnc), (.encAck, .rxData 0 0)] →
    s.pc = ph → s.txRoom = true →
    exec .ack s = .next { s with tx := s.tx ++ [0xB1], pc := next }
    ∧ step s = .next { s with tx := s.tx ++ [0xB1], pc := next } ∧ label s = some (.tx 0xB1)

/-- 43_session_provisioning.md R153: a byte of the key frame goes to its lane and nowhere else, any value is data, and
the last byte of a word completes it. -/
def Obligations.KeyByteGoesToItsLane : Prop :=
  ∀ (s : State) (n : Fin 32) (b : Byte), s.pc = .keyData n →
    ∃ t, exec (.keyFrame b) s = .next t ∧ step { s with rx := b :: s.rx } = .next t
      ∧ t = { s with key := t.key, pc := if n = 31 then .keyAck2 else .keyData (n + 1) }
      ∧ (∀ j : Fin 32, fileByte (k := 8) t.key j = if j = n then b else fileByte (k := 8) s.key j)
      ∧ (∀ i : Fin 8, n.val = 4 * i.val + 3 →
          t.key[i] = wordLE (getLane s.key[i] 0) (getLane s.key[i] 1) (getLane s.key[i] 2) b)

/-- 43_session_provisioning.md R158: a byte of the nonce frame goes to its lane; after the last one the 64-bit nonce is
the frame read as a little-endian integer. -/
def Obligations.NonceByteGoesToItsLane : Prop :=
  ∀ (s : State) (n : Fin 8) (b : Byte), s.pc = .nonceData n →
    ∃ t, exec (.nonceFrame b) s = .next t ∧ step { s with rx := b :: s.rx } = .next t
      ∧ t = { s with nonce := t.nonce, pc := if n = 7 then .nonceAck2 else .nonceData (n + 1) }
      ∧ (∀ j : Fin 8, fileByte (k := 2) t.nonce j = if j = n then b else fileByte (k := 2) s.nonce j)
      ∧ (∀ j : Fin 8, (join64 t.nonce >>> (8 * j.val)).setWidth 8 = fileByte (k := 2) t.nonce j)

/-- 44_session_encrypt_cycle.md R169: a payload byte is stored at its address in `IN`, every other byte of memory is
unchanged. -/
def Obligations.PayloadByteIsStoredInPlace : Prop :=
  ∀ (s : State) (p : Fin 4) (n : Fin 16) (b : Byte), s.pc = .rxData p n →
    ∃ t, exec (.packetRx b) s = .next t ∧ step { s with rx := b :: s.rx } = .next t
      ∧ t = { s with inBuf := t.inBuf, pc := if n = 15 then .rxCsum p else .rxData p (n + 1) }
      ∧ (∀ a : Nat, t.inBuf.read a = if a = 16 * p.val + n.val then b else s.inBuf.read a)

/-- 44_session_encrypt_cycle.md R170: the checksum byte is compared with the recomputed checksum; only `MATCH` and `pc`
are written; the mismatch is the event `ChecksumMismatch`. -/
def Obligations.ChecksumByteSetsMatch : Prop :=
  ∀ (s : State) (p : Fin 4) (b : Byte), s.pc = .rxCsum p →
    exec (.packetRx b) s
        = .next { s with matchFlag := decide (b = csum (s.inBuf.readBytes (16 * p.val) 16)), pc := .rxReply p }
    ∧ step { s with rx := b :: s.rx } = exec (.packetRx b) s
    ∧ raised { s with rx := b :: s.rx }
        = if b = csum (s.inBuf.readBytes (16 * p.val) 16) then none else some (.checksumMismatch p)

/-- 44_session_encrypt_cycle.md R171: the reply to a received packet. That `exec` of the reply `MATCH` does not choose is
refused as not selected is the model's choice (notes/assumptions/8.md): R171 does not say it. -/
def Obligations.ReplyFollowsMatch : Prop :=
  ∀ (s : State) (p : Fin 4), s.pc = .rxReply p → s.txRoom = true →
    (s.matchFlag = true →
      exec .ack s = .next { s with tx := s.tx ++ [0xB1], pc := if p = 3 then .encrypt else .rxData (p + 1) 0 }
      ∧ step s = exec .ack s ∧ exec .nack s = .refused (.notSelected "NACK"))
    ∧ (s.matchFlag = false →
      exec .nack s = .next { s with tx := s.tx ++ [0xC2], pc := .rxData p 0 }
      ∧ step s = exec .nack s ∧ exec .ack s = .refused (.notSelected "ACK"))

/-- 44_session_encrypt_cycle.md R172: the internal step, always enabled: `OUT` is the ciphertext of `IN` under the counter
held before it, the counter advances by one (modulo 2^64: the spec's decision D14, notes/assumptions/13.md), nothing else
changes, nothing is raised. That this step is an execution of `ENCRYPT` is the model's choice (notes/assumptions/9.md). -/
def Obligations.EncryptStepEncryptsOnce : Prop :=
  ∀ s : State, s.pc = .encrypt →
    ∃ t, exec .encrypt s = .next t ∧ step s = .next t
      ∧ t = { s with outBuf := t.outBuf, counter := t.counter, pc := .announce }
      ∧ t.outBuf.block = (encryptBlock s.cfg.sigma s.key s.nonce s.counter s.inBuf.block).1
      ∧ (∀ a : Nat, 64 ≤ a → t.outBuf.read a = s.outBuf.read a)
      ∧ join64 t.counter = join64 s.counter + 1
      ∧ label s = some .tau ∧ raised s = none

/-- 44_session_encrypt_cycle.md R174: the announcement. -/
def Obligations.AnnouncementIsSent : Prop :=
  ∀ s : State, s.pc = .announce → s.txRoom = true →
    exec .sendCipher s = .next { s with tx := s.tx ++ [0x15], pc := .announceAck }
    ∧ step s = exec .sendCipher s ∧ label s = some (.tx 0x15)

/-- 44_session_encrypt_cycle.md R175, 60_exceptions.md R200: exactly one byte decides at the handshake; any byte but `ACK`
takes the device into the halt, by a step that writes nothing but `pc`. -/
def Obligations.HandshakeByteDecides : Prop :=
  ∀ (s : State) (b : Byte), s.pc = .announceAck →
    (b = 0xB1 → step { s with rx := b :: s.rx } = .next { s with pc := .txData 0 0 }
      ∧ exec .ack s = .next { s with pc := .txData 0 0 } ∧ raised { s with rx := b :: s.rx } = none)
    ∧ (b ≠ 0xB1 → step { s with rx := b :: s.rx } = .next { s with pc := .halt }
      ∧ raised { s with rx := b :: s.rx } = some (.desync b))
    ∧ exec .nack s = .next { s with pc := .halt }

/-- 44_session_encrypt_cycle.md R177, R178: a payload byte is sent from its address in `OUT`, and after the sixteenth the
checksum of the sixteen bytes just sent; nothing but `pc` is written. -/
def Obligations.CiphertextPacketBytesAreSent : Prop :=
  ∀ (s : State) (p : Fin 4), s.txRoom = true →
    (∀ n : Fin 16, s.pc = .txData p n →
      exec .packetTx s = .next { s with
          tx := s.tx ++ [s.outBuf.read (16 * p.val + n.val)], pc := if n = 15 then .txCsum p else .txData p (n + 1) }
      ∧ step s = exec .packetTx s
      ∧ s.outBuf.read (16 * p.val + n.val)
          = getLane (s.outBuf.block[4 * p.val + n.val / 4]'(by omega)) (n.val % 4))
    ∧ (s.pc = .txCsum p →
      exec .packetTx s = .next { s with tx := s.tx ++ [csum (s.outBuf.readBytes (16 * p.val) 16)], pc := .txAck p }
      ∧ step s = exec .packetTx s)

/-- 44_session_encrypt_cycle.md R179, R181: the reply to a ciphertext packet; `NACK` is one of the 255 bytes that have it
sent again. -/
def Obligations.PacketReplyDecides : Prop :=
  ∀ (s : State) (p : Fin 4) (b : Byte), s.pc = .txAck p →
    (b = 0xB1 →
      step { s with rx := b :: s.rx } = .next { s with pc := if p = 3 then .waitEnc else .txData (p + 1) 0 }
      ∧ exec .ack s = step { s with rx := b :: s.rx } ∧ raised { s with rx := b :: s.rx } = none)
    ∧ (b ≠ 0xB1 → step { s with rx := b :: s.rx } = .next { s with pc := .txData p 0 }
      ∧ exec .nack s = step { s with rx := b :: s.rx } ∧ raised { s with rx := b :: s.rx } = some (.peerReject p b))

/-- Where a meaning stops by name: that it is a refusal is the model's choice (notes/assumptions/8.md), the places are those
that 30_encoding.md R91, R94 and R98 leave the instruction out of: a positional byte out of its position, a code the device
sends in a phase that does not send it, a request code in a phase that consumes nothing. -/
def Obligations.UnselectedInstructionsAreRefused : Prop :=
  ∀ (s : State) (b : Byte),
    ((∀ n, s.pc ≠ .keyData n) → exec (.keyFrame b) s = .refused (.notSelected "KEY_FRAME"))
    ∧ ((∀ n, s.pc ≠ .nonceData n) → exec (.nonceFrame b) s = .refused (.notSelected "NONCE_FRAME"))
    ∧ ((∀ p, s.pc ≠ .rxCsum p) → (∀ p n, s.pc ≠ .rxData p n) →
        exec (.packetRx b) s = .refused (.notSelected "PACKET_RX"))
    ∧ ((∀ p, s.pc ≠ .txCsum p) → (∀ p n, s.pc ≠ .txData p n) →
        exec .packetTx s = .refused (.notSelected "PACKET_TX"))
    ∧ (s.pc ≠ .announce → exec .sendCipher s = .refused (.notSelected "SEND_CIPHER"))
    ∧ (s.pc.kind ≠ .rx → exec .sendKey s = .refused (.notSelected "SEND_KEY")
        ∧ exec .sendNonce s = .refused (.notSelected "SEND_NONCE")
        ∧ (s.pc ≠ .encrypt → exec .encrypt s = .refused (.notSelected "ENCRYPT"))
        ∧ (wellFormed s.pc s.matchFlag .ack = false → exec .ack s = .refused (.notSelected "ACK"))
        ∧ (wellFormed s.pc s.matchFlag .nack = false → exec .nack s = .refused (.notSelected "NACK")))

/-! ### Frames -/

/-- What no instruction touches, and what each leaves alone: the parameters and `RX` always; `K` but in the key frame, `N`
but in the nonce frame, `C` and `OUT` but in the cipher step, `MATCH` but at a received checksum byte, `IN` but at the one
address a payload byte is stored to. Every byte of memory outside the stored bytes reads as before. -/
def Obligations.InstructionsLeaveTheRestAlone : Prop :=
  ∀ (i : Instr) (s t : State), exec i s = .next t →
    t.cfg = s.cfg ∧ t.rx = s.rx
    ∧ ((∀ n, s.pc ≠ .keyData n) → t.key = s.key)
    ∧ ((∀ n, s.pc ≠ .nonceData n) → t.nonce = s.nonce)
    ∧ (s.pc ≠ .encrypt → t.counter = s.counter ∧ t.outBuf = s.outBuf)
    ∧ (s.pc = .encrypt → ∀ a : Nat, 64 ≤ a → t.outBuf.read a = s.outBuf.read a)
    ∧ ((∀ p, s.pc ≠ .rxCsum p) → t.matchFlag = s.matchFlag)
    ∧ ((∀ p n, s.pc ≠ .rxData p n) → t.inBuf = s.inBuf)
    ∧ (∀ p n, s.pc = .rxData p n → ∀ a : Nat, a ≠ packetAddr p n.val → t.inBuf.read a = s.inBuf.read a)
    ∧ (s.pc.kind ≠ .tx → t.tx = s.tx)
    ∧ (s.pc.kind = .tx → ∃ b, t.tx = s.tx ++ [b])

/-- 10_state.md R22, R24, 44_session_encrypt_cycle.md R186: the counter advances by one in the cipher step and in no other
step: not in provisioning, not on a retry in either direction. (At 2^64 - 1 it wraps: the spec's decision D14,
notes/assumptions/13.md.) -/
def Obligations.CounterAdvancesOnlyAtEncryption : Prop :=
  ∀ s t : State, step s = .next t →
    join64 t.counter = if s.pc = .encrypt then join64 s.counter + 1 else join64 s.counter

/-! ### Events, the halt, reset -/

/-- 60_exceptions.md R195, R196: the halt is entered by one event only. -/
def Obligations.OnlyDesyncHalts : Prop :=
  ∀ s t : State, step s = .next t →
    (t.pc = .halt ↔ ∃ b, raised s = some (.desync b))
    ∧ (t.pc = .halt → s.pc = .announceAck ∧ ∃ b rest, s.rx = b :: rest ∧ b ≠ 0xB1)

/-- 60_exceptions.md R200 to R204: until reset the halted device does nothing. However the host acts, its phase, its
registers and its buffers stay, it consumes no byte and sends none. That the registers are kept (R201) and that nothing is
drained from `RX` (R202) are the spec's own decisions D17 and D18, not its source's (notes/assumptions/14.md). -/
def Obligations.HaltLastsUntilReset : Prop :=
  ∀ (as : List Action) (s t : State), s.pc = .halt → (∀ u, Action.reset u ∉ as) → acts as s = some t →
    t.pc = .halt ∧ t.key = s.key ∧ t.nonce = s.nonce ∧ t.counter = s.counter ∧ t.inBuf = s.inBuf ∧ t.outBuf = s.outBuf
    ∧ t.matchFlag = s.matchFlag ∧ (∃ k, t.tx = s.tx.drop k) ∧ (∃ bs, t.rx = s.rx ++ bs)

/-- 70_reset_and_hazards.md R215 to R217: reset is possible in every state, sets `pc` and the counter and sends nothing;
what the other registers hold after it is whatever the environment left there; the queues are emptied or left, as the
open parameter says. These are the spec's own decisions D3, D9 and D19 (notes/assumptions/3.md, 13.md and 19.md). -/
def Obligations.ResetActionSetsPhaseAndCounter : Prop :=
  ∀ (s : State) (u : ResetContents), ∃ t, act (.reset u) s = some t
    ∧ t.pc = .waitKey ∧ join64 t.counter = s.cfg.counterInit ∧ t.cfg = s.cfg
    ∧ t.key = u.key ∧ t.nonce = u.nonce ∧ t.inBuf.block = u.inBlock ∧ t.outBuf.block = u.outBlock
    ∧ t.matchFlag = u.matchFlag
    ∧ ((Config.resetFlushesQueues = true ∧ t.rx = [] ∧ t.tx = [])
        ∨ (Config.resetFlushesQueues = false ∧ t.rx = s.rx ∧ t.tx = s.tx))

/-- 10_state.md R47, 70_reset_and_hazards.md R225: the values the spec gives the state right after reset, its own decisions
D3 and D20 among them. (The values of the registers it leaves unspecified are the model's choice,
notes/assumptions/4.md, and are not stated.) -/
def Obligations.ResetStateHoldsTheSpecifiedValues : Prop :=
  State.reset.pc = .waitKey ∧ State.reset.pc.sessionState = .awaitingKey
    ∧ join64 State.reset.counter = State.reset.cfg.counterInit
    ∧ State.reset.cfg.counterInit = 0 ∧ State.reset.rx = [] ∧ State.reset.tx = []

/-- 70_reset_and_hazards.md R221, 10_state.md R48: nothing but reset leads back to `P_WAIT_KEY`, out of the halt, or sets
the counter to anything but itself or itself plus one (modulo 2^64). That there is one kind of reset is the spec's decision
D9, the wrap D14 (notes/assumptions/19.md, 13.md). -/
def Obligations.ResetIsTheOnlyWayBack : Prop :=
  ∀ (a : Action) (s t : State), act a s = some t → (∀ u, a ≠ .reset u) →
    (t.pc = .waitKey → s.pc = .waitKey) ∧ (s.pc = .halt → t.pc = .halt)
    ∧ (join64 t.counter = join64 s.counter ∨ join64 t.counter = join64 s.counter + 1)

/-! ### Invariants -/

/-- Every step keeps the state well formed: both buffers in canonical form, both queues within their depths. The
form is the model's own (notes/assumptions/11.md). -/
def Obligations.StepKeepsStateWellFormed : Prop :=
  ∀ s t : State, s.wf = true → step s = .next t → t.wf = true

/-- The state after reset is well formed. -/
def Obligations.ResetStateIsWellFormed : Prop := State.reset.wf = true

/-- So do the actions of the host and of the environment, whatever contents reset leaves. -/
def Obligations.EveryActionKeepsStateWellFormed : Prop :=
  ∀ (as : List Action) (s t : State), s.wf = true → acts as s = some t → t.wf = true

/-- 10_state.md R24, 43_session_provisioning.md R160: once provisioned, `K` and `N` stay as they are until reset, whatever
the host does, and the device stays provisioned. -/
def Obligations.KeyAndNonceAreFixedOnceProvisioned : Prop :=
  ∀ (as : List Action) (s t : State), s.pc.provisioned = true → (∀ u, Action.reset u ∉ as) → acts as s = some t →
    t.pc.provisioned = true ∧ t.key = s.key ∧ t.nonce = s.nonce

/-- 70_reset_and_hazards.md R219: no register is read before it is written. Two devices equal in everything but the
registers nothing has written since reset take the same step, and stay equal but for those. -/
def Obligations.UnwrittenRegistersNeverShow : Prop :=
  ∀ s t : State, sameButUnwritten s t →
    label s = label t ∧ raised s = raised t ∧ sameOutcome (step s) (step t)

/-- 10_state.md R23: outside the cipher step nothing the device does depends on `K`, `N` or `C`. -/
def Obligations.CipherStateShowsOnlyThroughEncryption : Prop :=
  ∀ (s t : State) (k : Key) (n c : Halves), s.pc ≠ .encrypt → step s = .next t →
    ∃ t', step { s with key := k, nonce := n, counter := c } = .next t'
      ∧ t'.pc = t.pc ∧ t'.rx = t.rx ∧ t'.tx = t.tx ∧ t'.inBuf = t.inBuf ∧ t'.outBuf = t.outBuf
      ∧ t'.matchFlag = t.matchFlag ∧ t'.cfg = t.cfg

/-! ### Whole transactions -/

/-- The scan of `P_WAIT_KEY` (43_session_provisioning.md R150, R151): any number of stray bytes is consumed and nothing
else happens. -/
def Obligations.StrayBytesAreScannedAway : Prop :=
  ∀ (s : State) (junk rest : List Byte), s.pc = .waitKey → (0x13 : Byte) ∉ junk → s.rx = junk ++ rest →
    Host.Core.run core junk.length s = .next { s with rx := rest }

/-- `SEND_KEY` from end to end (43_session_provisioning.md R150): the 34 steps of the transaction load the key sent. -/
def Obligations.KeyIsProvisioned : Prop :=
  ∀ (s : State) (key : Key) (rest : List Byte), s.pc = .waitKey → s.cfg.txDepth = none →
    s.rx = hostBytes (provisionKey key) ++ rest →
    replay (provisionKey key) s
      = some { s with key := key, pc := .waitNonce, rx := rest, tx := s.tx ++ [0xB1, 0xB1] }

/-- `SEND_NONCE` from end to end (43_session_provisioning.md R155). -/
def Obligations.NonceIsProvisioned : Prop :=
  ∀ (s : State) (nonce : Halves) (rest : List Byte), s.pc = .waitNonce → s.cfg.txDepth = none →
    s.rx = hostBytes (provisionNonce nonce) ++ rest →
    replay (provisionNonce nonce) s
      = some { s with nonce := nonce, pc := .waitEnc, rx := rest, tx := s.tx ++ [0xB1, 0xB1] }

/-- `PACKET` received, from end to end (44_session_encrypt_cycle.md R168): any sixteen bytes are stored, the reply says
whether the checksum byte was theirs, and a rejected packet is awaited again. -/
def Obligations.PacketIsReceived : Prop :=
  ∀ (s : State) (p : Fin 4) (d rest : List Byte) (c : Byte), s.pc = .rxData p 0 → s.cfg.txDepth = none →
    d.length = 16 → s.rx = d ++ c :: rest →
    Host.Core.run core 18 s = .next { s with
      inBuf := s.inBuf.writeBytes (16 * p.val) d
      matchFlag := decide (c = csum d)
      pc := if c = csum d then (if p = 3 then .encrypt else .rxData (p + 1) 0) else .rxData p 0
      rx := rest
      tx := s.tx ++ [if c = csum d then 0xB1 else 0xC2] }

/-- `PACKET` sent, from end to end (44_session_encrypt_cycle.md R176, R186): seventeen bytes and the host's verdict; on
anything but `ACK` the device is back at the start of the same packet with `OUT` and the counter as they were. -/
def Obligations.PacketIsSent : Prop :=
  ∀ (s : State) (p : Fin 4) (b : Byte) (rest : List Byte), s.pc = .txData p 0 → s.cfg.txDepth = none →
    s.rx = b :: rest →
    Host.Core.run core 18 s = .next { s with
      pc := if b = 0xB1 then (if p = 3 then .waitEnc else .txData (p + 1) 0) else .txData p 0
      rx := rest
      tx := s.tx ++ packetBytes s.outBuf.block p }

/-- One clean cycle (44_session_encrypt_cycle.md R165, R173, R184, R188; 30_encoding.md R106): the plaintext goes in, the
ciphertext under the present counter comes out, the counter advances by one (modulo 2^64: the spec's decision D14,
notes/assumptions/13.md). -/
def Obligations.CleanCycleEncryptsOneBlock : Prop :=
  ∀ (s : State) (pt ct : Block) (rest : List Byte), s.pc = .waitEnc → s.cfg.txDepth = none →
    ct = (encryptBlock s.cfg.sigma s.key s.nonce s.counter pt).1 →
    s.rx = hostBytes (encryptCycle pt ct) ++ rest →
    ∃ t, replay (encryptCycle pt ct) s = some t
      ∧ t = { s with inBuf := t.inBuf, outBuf := t.outBuf, counter := incCounter s.counter, matchFlag := true
                     rx := rest, tx := s.tx ++ deviceBytes (encryptCycle pt ct) }
      ∧ t.inBuf.block = pt ∧ t.outBuf.block = ct

/-- A whole session (30_encoding.md R106, 44_session_encrypt_cycle.md R182, R183): from `P_WAIT_KEY`, for every key, nonce
and list of blocks, the device follows the transcript, block `k` under the counter it started with plus `k` (modulo 2^64:
the spec's decision D14, notes/assumptions/13.md). -/
def Obligations.SessionEncryptsEveryBlock : Prop :=
  ∀ (s : State) (key : Key) (nonce : Halves) (pts : List Block) (rest : List Byte), s.pc = .waitKey →
    s.cfg.txDepth = none → s.rx = hostBytes (session s.cfg.sigma key nonce s.counter pts) ++ rest →
    ∃ t, replay (session s.cfg.sigma key nonce s.counter pts) s = some t
      ∧ t.pc = .waitEnc ∧ t.key = key ∧ t.nonce = nonce ∧ t.rx = rest
      ∧ join64 t.counter = join64 s.counter + BitVec.ofNat 64 pts.length
      ∧ t.tx = s.tx ++ deviceBytes (session s.cfg.sigma key nonce s.counter pts)

/-- 30_encoding.md R102, 43_session_provisioning.md R164, 44_session_encrypt_cycle.md R184: the lengths of the
transactions, in bytes each way, and of one cycle in steps. -/
def Obligations.TransactionLengths : Prop :=
  ∀ (key : Key) (nonce : Halves) (pt ct : Block),
    (hostBytes (provisionKey key)).length = 33 ∧ (deviceBytes (provisionKey key)).length = 2
    ∧ (hostBytes (provisionNonce nonce)).length = 9 ∧ (deviceBytes (provisionNonce nonce)).length = 2
    ∧ (hostBytes (putBlock pt)).length = 69 ∧ (deviceBytes (putBlock pt)).length = 5
    ∧ (hostBytes (getBlock ct)).length = 5 ∧ (deviceBytes (getBlock ct)).length = 69
    ∧ (encryptCycle pt ct).length = 149
end

