-- ==== Sys2Proof/Laws/Frame.lean ====
section
/-! SUPPORT. Well-formed packets (30_encoding.md R84): what the device compares on receipt, and what it sends. -/

namespace Sys2Proof.Laws

open Sys2Proof Sys2Proof.Machine

/-- A well-formed frame can be read as its format. -/
theorem readable_of_wellFormed (f : Frame) (h : f.wellFormed = true) : f.readable = true := by
  cases f <;> simp_all [Frame.wellFormed, Frame.readable]

/-- A packet is well formed exactly when it ends in the checksum of its payload (30_encoding.md R84). -/
theorem wellFormed_pkt (w : Vector Word 4) (c : Byte) :
    (Frame.pkt w c).wellFormed = true ↔ c = csum (bytesLEs w.toList) := by
  simp [Frame.wellFormed]

/-- The bytes of an assembled word are the bytes it was assembled from (20_memory.md R51). -/
theorem bytesLE_wordLE (b0 b1 b2 b3 : Byte) : bytesLE (wordLE b0 b1 b2 b3) = [b0, b1, b2, b3] := by
  simp only [bytesLE, List.cons.injEq, and_true]
  refine ⟨?_, ?_, ?_, ?_⟩ <;> ext i hi <;> simp [getLane, wordLE] <;> interval_cases i <;> simp

/-- The four words of packet `p` of a buffer. -/
def packetWords (m : Memory) (p : Fin 4) : Vector Word 4 :=
  #v[m.word (4 * p.val), m.word (4 * p.val + 1), m.word (4 * p.val + 2), m.word (4 * p.val + 3)]

/-- The sixteen payload bytes of packet `p` are its four words in link order (20_memory.md R55). -/
theorem readBytes_packet (m : Memory) (p : Fin 4) :
    m.readBytes (packetAddr p 0) 16 = bytesLEs (packetWords m p).toList := by
  simp only [packetWords, Vector.toList_mk, bytesLEs, Memory.word, bytesLE_wordLE, Memory.readBytes, packetAddr]
  fin_cases p <;> rfl

/-- `MATCH` becomes whether the packet just received, payload in `IN` and checksum byte `b`, is well formed
(44_session_encrypt_cycle.md R170). -/
theorem matchOf_eq_wellFormed (s : State) (p : Fin 4) (b : Byte) :
    matchOf s p b = (Frame.pkt (packetWords s.inBuf p) b).wellFormed := by
  simp [matchOf, packetCsum, Frame.wellFormed, readBytes_packet]

/-- What the device sends for a packet of a block is a well-formed packet (44_session_encrypt_cycle.md R178). -/
theorem packetBytes_wellFormed (F : Block) (p : Fin 4) :
    ∃ f : Frame, f.format = .pkt ∧ f.wellFormed = true ∧ encodeFrame f = packetBytes F p :=
  ⟨.pkt #v[F[4 * p.val], F[4 * p.val + 1], F[4 * p.val + 2], F[4 * p.val + 3]]
      (csum (bytesLEs [F[4 * p.val], F[4 * p.val + 1], F[4 * p.val + 2], F[4 * p.val + 3]])),
    rfl, by simp [Frame.wellFormed], rfl⟩

end Sys2Proof.Laws
end

