-- ==== Sys2Proof/Laws/Memory.lean ====
section
/-! SUPPORT. What the buffer operations do: a read after a write (20_memory.md R63, 00_scope.md R14), and that every write
keeps the canonical form. -/

namespace Sys2Proof.Laws

open Sys2Proof.Machine

@[simp] theorem read_nil (a : Nat) : Memory.read [] a = Memory.unlisted := rfl

theorem read_cons (c : Host.Cell) (m : Memory) (a : Nat) :
    Memory.read (c :: m) a = if c.1 = a then c.2 else Memory.read m a := rfl

theorem read_erase (m : Memory) (a x : Nat) :
    (Memory.erase m a).read x = if x = a then Memory.unlisted else m.read x := by
  induction m with
  | nil => simp [Memory.erase]
  | cons c m ih =>
    have hstep : Memory.erase (c :: m) a = if c.1 = a then Memory.erase m a else c :: Memory.erase m a := by
      by_cases h : c.1 = a <;> simp [Memory.erase, h]
    rw [hstep]
    by_cases hc : c.1 = a
    · rw [if_pos hc, ih, read_cons]
      by_cases hx : x = a
      · simp [hx]
      · rw [if_neg hx, if_neg hx, if_neg (by omega)]
    · rw [if_neg hc, read_cons, read_cons, ih]
      by_cases hx : x = a
      · rw [if_neg (by omega)]; simp [hx]
      · simp [hx]

theorem read_insert (m : Memory) (a x : Nat) (b : Byte) (h : ∀ c ∈ m, c.1 ≠ a) :
    (Memory.insert m a b).read x = if x = a then b else m.read x := by
  induction m with
  | nil =>
    by_cases hx : x = a
    · simp [Memory.insert, read_cons, hx]
    · simp [Memory.insert, read_cons, hx, Ne.symm hx]
  | cons c m ih =>
    have hc : c.1 ≠ a := h c (by simp)
    have hm := ih (fun d hd => h d (by simp [hd]))
    by_cases hlt : a < c.1
    · have : Memory.insert (c :: m) a b = (a, b) :: c :: m := by simp [Memory.insert, hlt]
      rw [this, read_cons]
      by_cases hx : x = a
      · simp [hx]
      · rw [if_neg (Ne.symm hx), if_neg hx]
    · have : Memory.insert (c :: m) a b = c :: Memory.insert m a b := by simp [Memory.insert, hlt]
      rw [this, read_cons, hm, read_cons]
      by_cases hx : x = a
      · subst hx; simp [hc]
      · simp [hx]

theorem erase_keys (m : Memory) (a : Nat) : ∀ c ∈ Memory.erase m a, c.1 ≠ a := by
  intro c hc
  simpa using (List.mem_filter.mp hc).2

/-- A read after a write: the byte written at its address, every other byte as before, whatever the form of the buffer. -/
theorem read_write (m : Memory) (a x : Nat) (b : Byte) :
    (m.write a b).read x = if x = a then b else m.read x := by
  unfold Memory.write
  split
  · next h => rw [read_erase, h]
  · rw [read_insert _ _ _ _ (erase_keys m a), read_erase]
    by_cases hx : x = a <;> simp [hx]

/-- A read after a span is written: within the span its byte, outside it as before. -/
theorem read_writeBytes (bs : List Byte) : ∀ (m : Memory) (a x : Nat),
    (m.writeBytes a bs).read x = if h : a ≤ x ∧ x < a + bs.length then bs[x - a]'(by omega) else m.read x := by
  induction bs with
  | nil => intro m a x; simp [Memory.writeBytes]
  | cons b bs ih =>
    intro m a x
    rw [Memory.writeBytes, ih, read_write]
    by_cases h1 : a + 1 ≤ x ∧ x < a + 1 + bs.length
    · have h2 : a ≤ x ∧ x < a + (b :: bs).length := by simp; omega
      rw [dif_pos h1, dif_pos h2]
      have : x - a = (x - (a + 1)) + 1 := by omega
      simp [this]
    · rw [dif_neg h1]
      by_cases hx : x = a
      · subst hx; simp
      · have h2 : ¬(a ≤ x ∧ x < a + (b :: bs).length) := by simp; omega
        rw [dif_neg h2, if_neg hx]

theorem length_readBytes (m : Memory) (n : Nat) : ∀ a, (m.readBytes a n).length = n := by
  induction n with
  | zero => intro a; rfl
  | succ n ih => intro a; simp [Memory.readBytes, ih]

/-- Equal bytes in a span read as equal spans. -/
theorem readBytes_congr (m m' : Memory) (n : Nat) : ∀ a, (∀ x, a ≤ x → x < a + n → m.read x = m'.read x) →
    m.readBytes a n = m'.readBytes a n := by
  induction n with
  | zero => intro a _; rfl
  | succ n ih =>
    intro a h
    rw [Memory.readBytes, Memory.readBytes, h a (le_refl a) (by omega), ih (a + 1) (fun x h1 h2 => h x (by omega) (by omega))]

/-- Reading back a span just written gives it. -/
theorem readBytes_writeBytes (bs : List Byte) : ∀ (m : Memory) (a : Nat),
    (m.writeBytes a bs).readBytes a bs.length = bs := by
  intro m a
  have key : ∀ (k : Nat) (cs : List Byte) (M : Memory) (x : Nat), cs.length = k →
      (∀ i (h : i < cs.length), M.read (x + i) = cs[i]) → M.readBytes x k = cs := by
    intro k
    induction k with
    | zero => intro cs M x hk _; simp [Memory.readBytes, List.length_eq_zero_iff.mp hk]
    | succ k ih =>
      intro cs M x hk h
      cases cs with
      | nil => simp at hk
      | cons c cs =>
        have h0 := h 0 (by simp)
        have hr := ih cs M (x + 1) (by simpa using hk) (by
          intro i hi
          have := h (i + 1) (by simpa using hi)
          simpa [Nat.add_assoc, Nat.add_comm 1 i] using this)
        simp only [Nat.add_zero, List.getElem_cons_zero] at h0
        rw [Memory.readBytes, h0, hr]
  refine key _ bs _ a rfl ?_
  intro i hi
  rw [read_writeBytes, dif_pos ⟨by omega, by omega⟩]
  simp

theorem packetAddr_lt (p : Fin 4) (n : Nat) (h : n < 16) : packetAddr p n < 64 := by
  have := p.isLt
  unfold packetAddr; omega

/-! ### The canonical form -/

theorem wf_cons (c : Host.Cell) (m : Memory) :
    Memory.wf (c :: m) = true ↔ (∀ d ∈ m, c.1 < d.1) ∧ c.1 < 64 ∧ c.2 ≠ Memory.unlisted ∧ Memory.wf m = true := by
  have hr : Memory.rising (c :: m) = (m.all (fun d => decide (c.1 < d.1)) && Memory.rising m) := rfl
  unfold Memory.wf
  rw [hr]
  simp only [Bool.and_eq_true, List.all_eq_true, List.all_cons, decide_eq_true_eq, bne_iff_ne, ne_eq]
  tauto

theorem wf_nil : Memory.wf [] = true := rfl

theorem wf_erase (m : Memory) (a : Nat) (h : m.wf = true) : (Memory.erase m a).wf = true := by
  induction m with
  | nil => rfl
  | cons c m ih =>
    have ⟨h1, h2, h3, h4⟩ := (wf_cons c m).mp h
    by_cases hc : c.1 = a
    · have : Memory.erase (c :: m) a = Memory.erase m a := by simp [Memory.erase, hc]
      rw [this]; exact ih h4
    · have : Memory.erase (c :: m) a = c :: Memory.erase m a := by simp [Memory.erase, hc]
      rw [this, wf_cons]
      exact ⟨fun d hd => h1 d (List.mem_filter.mp hd).1, h2, h3, ih h4⟩

theorem mem_insert (m : Memory) (a : Nat) (b : Byte) (d : Host.Cell) :
    d ∈ Memory.insert m a b ↔ d = (a, b) ∨ d ∈ m := by
  induction m with
  | nil => simp [Memory.insert]
  | cons c m ih =>
    by_cases h : a < c.1
    · simp [Memory.insert, h]
    · simp [Memory.insert, h, ih]; tauto

theorem wf_insert (m : Memory) (a : Nat) (b : Byte) (h : m.wf = true) (ha : a < 64) (hb : b ≠ Memory.unlisted)
    (hm : ∀ c ∈ m, c.1 ≠ a) : (Memory.insert m a b).wf = true := by
  induction m with
  | nil => rw [Memory.insert, wf_cons]; exact ⟨by simp, ha, hb, rfl⟩
  | cons c m ih =>
    have ⟨h1, h2, h3, h4⟩ := (wf_cons c m).mp h
    by_cases hlt : a < c.1
    · have : Memory.insert (c :: m) a b = (a, b) :: c :: m := by simp [Memory.insert, hlt]
      rw [this, wf_cons]
      refine ⟨?_, ha, hb, h⟩
      intro d hd
      rcases List.mem_cons.mp hd with rfl | hd
      · exact hlt
      · exact lt_trans hlt (h1 d hd)
    · have : Memory.insert (c :: m) a b = c :: Memory.insert m a b := by simp [Memory.insert, hlt]
      rw [this, wf_cons]
      refine ⟨?_, h2, h3, ih h4 (fun d hd => hm d (by simp [hd]))⟩
      intro d hd
      rcases (mem_insert m a b d).mp hd with rfl | hd
      · have := hm c (by simp); simp only; omega
      · exact h1 d hd

/-- A write within the buffer keeps the canonical form. -/
theorem wf_write (m : Memory) (a : Nat) (b : Byte) (h : m.wf = true) (ha : a < 64) : (m.write a b).wf = true := by
  unfold Memory.write
  split
  · exact wf_erase m a h
  · next hb => exact wf_insert _ a b (wf_erase m a h) ha hb (erase_keys m a)

theorem wf_writeBytes (bs : List Byte) : ∀ (m : Memory) (a : Nat), m.wf = true → a + bs.length ≤ 64 →
    (m.writeBytes a bs).wf = true := by
  induction bs with
  | nil => intro m a h _; exact h
  | cons b bs ih =>
    intro m a h hlen
    simp only [List.length_cons] at hlen
    exact ih _ _ (wf_write m a b h (by omega)) (by omega)

theorem length_bytesLEs (ws : List Word) : (bytesLEs ws).length = 4 * ws.length := by
  induction ws with
  | nil => rfl
  | cons w ws ih => simp [bytesLEs, bytesLE, ih]; omega

/-- Writing a whole block keeps the canonical form. -/
theorem wf_writeBlock (m : Memory) (Q : Block) (h : m.wf = true) : (m.writeBlock Q).wf = true := by
  refine wf_writeBytes _ m 0 h ?_
  simp [length_bytesLEs]

/-- A byte read after a whole block is written: its byte within the 64, as before beyond them. -/
theorem read_writeBlock (m : Memory) (Q : Block) (a : Nat) :
    (m.writeBlock Q).read a
      = if h : a < 64 then (bytesLEs Q.toList)[a]'(by simp [length_bytesLEs]; omega) else m.read a := by
  unfold Memory.writeBlock
  rw [read_writeBytes]
  by_cases h : a < 64
  · rw [dif_pos h, dif_pos ⟨by omega, by simp [length_bytesLEs]; omega⟩]; simp
  · rw [dif_neg h, dif_neg (by simp [length_bytesLEs]; omega)]

end Sys2Proof.Laws
end

