-- ==== Sys2Proof/Laws/State.lean ====
section
/-! SUPPORT. One lemma per field per update: what each named update of the state does to each field. None of them unfolds
more than the update, so no later proof needs to. -/

namespace Sys2Proof.Laws

open Sys2Proof.Machine

/-! ### `enterHalt`: entry to the halt (60_exceptions.md R200, R201) -/

@[simp] theorem enterHalt_cfg (s : State) : (enterHalt s).cfg = s.cfg := rfl
@[simp] theorem enterHalt_key (s : State) : (enterHalt s).key = s.key := rfl
@[simp] theorem enterHalt_nonce (s : State) : (enterHalt s).nonce = s.nonce := rfl
@[simp] theorem enterHalt_counter (s : State) : (enterHalt s).counter = s.counter := rfl
@[simp] theorem enterHalt_inBuf (s : State) : (enterHalt s).inBuf = s.inBuf := rfl
@[simp] theorem enterHalt_outBuf (s : State) : (enterHalt s).outBuf = s.outBuf := rfl
@[simp] theorem enterHalt_matchFlag (s : State) : (enterHalt s).matchFlag = s.matchFlag := rfl
@[simp] theorem enterHalt_pc (s : State) : (enterHalt s).pc = .halt := rfl
@[simp] theorem enterHalt_rx (s : State) : (enterHalt s).rx = s.rx := rfl
@[simp] theorem enterHalt_tx (s : State) : (enterHalt s).tx = s.tx := rfl

/-! ### `waitFor`: the three waits -/

@[simp] theorem waitFor_cfg (code : Byte) (next : Phase) (b : Byte) (s : State) : (waitFor code next b s).cfg = s.cfg := rfl
@[simp] theorem waitFor_key (code : Byte) (next : Phase) (b : Byte) (s : State) : (waitFor code next b s).key = s.key := rfl
@[simp] theorem waitFor_nonce (code : Byte) (next : Phase) (b : Byte) (s : State) : (waitFor code next b s).nonce = s.nonce := rfl
@[simp] theorem waitFor_counter (code : Byte) (next : Phase) (b : Byte) (s : State) : (waitFor code next b s).counter = s.counter := rfl
@[simp] theorem waitFor_inBuf (code : Byte) (next : Phase) (b : Byte) (s : State) : (waitFor code next b s).inBuf = s.inBuf := rfl
@[simp] theorem waitFor_outBuf (code : Byte) (next : Phase) (b : Byte) (s : State) : (waitFor code next b s).outBuf = s.outBuf := rfl
@[simp] theorem waitFor_matchFlag (code : Byte) (next : Phase) (b : Byte) (s : State) : (waitFor code next b s).matchFlag = s.matchFlag := rfl
@[simp] theorem waitFor_pc (code : Byte) (next : Phase) (b : Byte) (s : State) : (waitFor code next b s).pc = if b = code then next else s.pc := rfl
@[simp] theorem waitFor_rx (code : Byte) (next : Phase) (b : Byte) (s : State) : (waitFor code next b s).rx = s.rx := rfl
@[simp] theorem waitFor_tx (code : Byte) (next : Phase) (b : Byte) (s : State) : (waitFor code next b s).tx = s.tx := rfl

/-! ### `keyDataRule`: a key byte -/

@[simp] theorem keyDataRule_cfg (n : Fin 32) (b : Byte) (s : State) : (keyDataRule n b s).cfg = s.cfg := rfl
@[simp] theorem keyDataRule_key (n : Fin 32) (b : Byte) (s : State) : (keyDataRule n b s).key = setFileByte s.key n b := rfl
@[simp] theorem keyDataRule_nonce (n : Fin 32) (b : Byte) (s : State) : (keyDataRule n b s).nonce = s.nonce := rfl
@[simp] theorem keyDataRule_counter (n : Fin 32) (b : Byte) (s : State) : (keyDataRule n b s).counter = s.counter := rfl
@[simp] theorem keyDataRule_inBuf (n : Fin 32) (b : Byte) (s : State) : (keyDataRule n b s).inBuf = s.inBuf := rfl
@[simp] theorem keyDataRule_outBuf (n : Fin 32) (b : Byte) (s : State) : (keyDataRule n b s).outBuf = s.outBuf := rfl
@[simp] theorem keyDataRule_matchFlag (n : Fin 32) (b : Byte) (s : State) : (keyDataRule n b s).matchFlag = s.matchFlag := rfl
@[simp] theorem keyDataRule_pc (n : Fin 32) (b : Byte) (s : State) : (keyDataRule n b s).pc = Phase.afterKeyByte n := rfl
@[simp] theorem keyDataRule_rx (n : Fin 32) (b : Byte) (s : State) : (keyDataRule n b s).rx = s.rx := rfl
@[simp] theorem keyDataRule_tx (n : Fin 32) (b : Byte) (s : State) : (keyDataRule n b s).tx = s.tx := rfl

/-! ### `nonceDataRule`: a nonce byte -/

@[simp] theorem nonceDataRule_cfg (n : Fin 8) (b : Byte) (s : State) : (nonceDataRule n b s).cfg = s.cfg := rfl
@[simp] theorem nonceDataRule_key (n : Fin 8) (b : Byte) (s : State) : (nonceDataRule n b s).key = s.key := rfl
@[simp] theorem nonceDataRule_nonce (n : Fin 8) (b : Byte) (s : State) : (nonceDataRule n b s).nonce = setFileByte s.nonce n b := rfl
@[simp] theorem nonceDataRule_counter (n : Fin 8) (b : Byte) (s : State) : (nonceDataRule n b s).counter = s.counter := rfl
@[simp] theorem nonceDataRule_inBuf (n : Fin 8) (b : Byte) (s : State) : (nonceDataRule n b s).inBuf = s.inBuf := rfl
@[simp] theorem nonceDataRule_outBuf (n : Fin 8) (b : Byte) (s : State) : (nonceDataRule n b s).outBuf = s.outBuf := rfl
@[simp] theorem nonceDataRule_matchFlag (n : Fin 8) (b : Byte) (s : State) : (nonceDataRule n b s).matchFlag = s.matchFlag := rfl
@[simp] theorem nonceDataRule_pc (n : Fin 8) (b : Byte) (s : State) : (nonceDataRule n b s).pc = Phase.afterNonceByte n := rfl
@[simp] theorem nonceDataRule_rx (n : Fin 8) (b : Byte) (s : State) : (nonceDataRule n b s).rx = s.rx := rfl
@[simp] theorem nonceDataRule_tx (n : Fin 8) (b : Byte) (s : State) : (nonceDataRule n b s).tx = s.tx := rfl

/-! ### `rxDataRule`: a received payload byte -/

@[simp] theorem rxDataRule_cfg (p : Fin 4) (n : Fin 16) (b : Byte) (s : State) : (rxDataRule p n b s).cfg = s.cfg := rfl
@[simp] theorem rxDataRule_key (p : Fin 4) (n : Fin 16) (b : Byte) (s : State) : (rxDataRule p n b s).key = s.key := rfl
@[simp] theorem rxDataRule_nonce (p : Fin 4) (n : Fin 16) (b : Byte) (s : State) : (rxDataRule p n b s).nonce = s.nonce := rfl
@[simp] theorem rxDataRule_counter (p : Fin 4) (n : Fin 16) (b : Byte) (s : State) : (rxDataRule p n b s).counter = s.counter := rfl
@[simp] theorem rxDataRule_inBuf (p : Fin 4) (n : Fin 16) (b : Byte) (s : State) : (rxDataRule p n b s).inBuf = s.inBuf.write (packetAddr p n.val) b := rfl
@[simp] theorem rxDataRule_outBuf (p : Fin 4) (n : Fin 16) (b : Byte) (s : State) : (rxDataRule p n b s).outBuf = s.outBuf := rfl
@[simp] theorem rxDataRule_matchFlag (p : Fin 4) (n : Fin 16) (b : Byte) (s : State) : (rxDataRule p n b s).matchFlag = s.matchFlag := rfl
@[simp] theorem rxDataRule_pc (p : Fin 4) (n : Fin 16) (b : Byte) (s : State) : (rxDataRule p n b s).pc = Phase.afterRxByte p n := rfl
@[simp] theorem rxDataRule_rx (p : Fin 4) (n : Fin 16) (b : Byte) (s : State) : (rxDataRule p n b s).rx = s.rx := rfl
@[simp] theorem rxDataRule_tx (p : Fin 4) (n : Fin 16) (b : Byte) (s : State) : (rxDataRule p n b s).tx = s.tx := rfl

/-! ### `rxCsumRule`: a received checksum byte -/

@[simp] theorem rxCsumRule_cfg (p : Fin 4) (b : Byte) (s : State) : (rxCsumRule p b s).cfg = s.cfg := rfl
@[simp] theorem rxCsumRule_key (p : Fin 4) (b : Byte) (s : State) : (rxCsumRule p b s).key = s.key := rfl
@[simp] theorem rxCsumRule_nonce (p : Fin 4) (b : Byte) (s : State) : (rxCsumRule p b s).nonce = s.nonce := rfl
@[simp] theorem rxCsumRule_counter (p : Fin 4) (b : Byte) (s : State) : (rxCsumRule p b s).counter = s.counter := rfl
@[simp] theorem rxCsumRule_inBuf (p : Fin 4) (b : Byte) (s : State) : (rxCsumRule p b s).inBuf = s.inBuf := rfl
@[simp] theorem rxCsumRule_outBuf (p : Fin 4) (b : Byte) (s : State) : (rxCsumRule p b s).outBuf = s.outBuf := rfl
@[simp] theorem rxCsumRule_matchFlag (p : Fin 4) (b : Byte) (s : State) : (rxCsumRule p b s).matchFlag = matchOf s p b := rfl
@[simp] theorem rxCsumRule_pc (p : Fin 4) (b : Byte) (s : State) : (rxCsumRule p b s).pc = .rxReply p := rfl
@[simp] theorem rxCsumRule_rx (p : Fin 4) (b : Byte) (s : State) : (rxCsumRule p b s).rx = s.rx := rfl
@[simp] theorem rxCsumRule_tx (p : Fin 4) (b : Byte) (s : State) : (rxCsumRule p b s).tx = s.tx := rfl

/-! ### `announceAckRule`: the reply to the announcement -/

@[simp] theorem announceAckRule_cfg (b : Byte) (s : State) : (announceAckRule b s).cfg = s.cfg := by
  unfold announceAckRule; split <;> rfl
@[simp] theorem announceAckRule_key (b : Byte) (s : State) : (announceAckRule b s).key = s.key := by
  unfold announceAckRule; split <;> rfl
@[simp] theorem announceAckRule_nonce (b : Byte) (s : State) : (announceAckRule b s).nonce = s.nonce := by
  unfold announceAckRule; split <;> rfl
@[simp] theorem announceAckRule_counter (b : Byte) (s : State) : (announceAckRule b s).counter = s.counter := by
  unfold announceAckRule; split <;> rfl
@[simp] theorem announceAckRule_inBuf (b : Byte) (s : State) : (announceAckRule b s).inBuf = s.inBuf := by
  unfold announceAckRule; split <;> rfl
@[simp] theorem announceAckRule_outBuf (b : Byte) (s : State) : (announceAckRule b s).outBuf = s.outBuf := by
  unfold announceAckRule; split <;> rfl
@[simp] theorem announceAckRule_matchFlag (b : Byte) (s : State) : (announceAckRule b s).matchFlag = s.matchFlag := by
  unfold announceAckRule; split <;> rfl
@[simp] theorem announceAckRule_pc (b : Byte) (s : State) : (announceAckRule b s).pc = if b = Config.codeAck then .txData 0 0 else .halt := by
  unfold announceAckRule; split <;> rfl
@[simp] theorem announceAckRule_rx (b : Byte) (s : State) : (announceAckRule b s).rx = s.rx := by
  unfold announceAckRule; split <;> rfl
@[simp] theorem announceAckRule_tx (b : Byte) (s : State) : (announceAckRule b s).tx = s.tx := by
  unfold announceAckRule; split <;> rfl

/-! ### `txAckRule`: the reply to a ciphertext packet -/

@[simp] theorem txAckRule_cfg (p : Fin 4) (b : Byte) (s : State) : (txAckRule p b s).cfg = s.cfg := rfl
@[simp] theorem txAckRule_key (p : Fin 4) (b : Byte) (s : State) : (txAckRule p b s).key = s.key := rfl
@[simp] theorem txAckRule_nonce (p : Fin 4) (b : Byte) (s : State) : (txAckRule p b s).nonce = s.nonce := rfl
@[simp] theorem txAckRule_counter (p : Fin 4) (b : Byte) (s : State) : (txAckRule p b s).counter = s.counter := rfl
@[simp] theorem txAckRule_inBuf (p : Fin 4) (b : Byte) (s : State) : (txAckRule p b s).inBuf = s.inBuf := rfl
@[simp] theorem txAckRule_outBuf (p : Fin 4) (b : Byte) (s : State) : (txAckRule p b s).outBuf = s.outBuf := rfl
@[simp] theorem txAckRule_matchFlag (p : Fin 4) (b : Byte) (s : State) : (txAckRule p b s).matchFlag = s.matchFlag := rfl
@[simp] theorem txAckRule_pc (p : Fin 4) (b : Byte) (s : State) : (txAckRule p b s).pc = if b = Config.codeAck then Phase.afterTxPacket p else .txData p 0 := rfl
@[simp] theorem txAckRule_rx (p : Fin 4) (b : Byte) (s : State) : (txAckRule p b s).rx = s.rx := rfl
@[simp] theorem txAckRule_tx (p : Fin 4) (b : Byte) (s : State) : (txAckRule p b s).tx = s.tx := rfl

/-! ### `encryptRule`: the cipher step -/

@[simp] theorem encryptRule_cfg (s : State) : (encryptRule s).cfg = s.cfg := rfl
@[simp] theorem encryptRule_key (s : State) : (encryptRule s).key = s.key := rfl
@[simp] theorem encryptRule_nonce (s : State) : (encryptRule s).nonce = s.nonce := rfl
@[simp] theorem encryptRule_counter (s : State) : (encryptRule s).counter = (encryptBlock s.cfg.sigma s.key s.nonce s.counter s.inBuf.block).2 := rfl
@[simp] theorem encryptRule_inBuf (s : State) : (encryptRule s).inBuf = s.inBuf := rfl
@[simp] theorem encryptRule_outBuf (s : State) : (encryptRule s).outBuf = s.outBuf.writeBlock (encryptBlock s.cfg.sigma s.key s.nonce s.counter s.inBuf.block).1 := rfl
@[simp] theorem encryptRule_matchFlag (s : State) : (encryptRule s).matchFlag = s.matchFlag := rfl
@[simp] theorem encryptRule_pc (s : State) : (encryptRule s).pc = .announce := rfl
@[simp] theorem encryptRule_rx (s : State) : (encryptRule s).rx = s.rx := rfl
@[simp] theorem encryptRule_tx (s : State) : (encryptRule s).tx = s.tx := rfl

/-! ### `resetAction`: reset (70_reset_and_hazards.md R215) -/

@[simp] theorem resetAction_cfg (u : ResetContents) (s : State) : (resetAction u s).cfg = s.cfg := rfl
@[simp] theorem resetAction_key (u : ResetContents) (s : State) : (resetAction u s).key = u.key := rfl
@[simp] theorem resetAction_nonce (u : ResetContents) (s : State) : (resetAction u s).nonce = u.nonce := rfl
@[simp] theorem resetAction_counter (u : ResetContents) (s : State) : (resetAction u s).counter = split64 s.cfg.counterInit := rfl
@[simp] theorem resetAction_inBuf (u : ResetContents) (s : State) : (resetAction u s).inBuf = Memory.writeBlock [] u.inBlock := rfl
@[simp] theorem resetAction_outBuf (u : ResetContents) (s : State) : (resetAction u s).outBuf = Memory.writeBlock [] u.outBlock := rfl
@[simp] theorem resetAction_matchFlag (u : ResetContents) (s : State) : (resetAction u s).matchFlag = u.matchFlag := rfl
@[simp] theorem resetAction_pc (u : ResetContents) (s : State) : (resetAction u s).pc = .waitKey := rfl
@[simp] theorem resetAction_rx (u : ResetContents) (s : State) : (resetAction u s).rx = if Config.resetFlushesQueues then [] else s.rx := rfl
@[simp] theorem resetAction_tx (u : ResetContents) (s : State) : (resetAction u s).tx = if Config.resetFlushesQueues then [] else s.tx := rfl

end Sys2Proof.Laws
end

