-- ==== Sys2Proof/Laws/Ops.lean ====
section
/-! SUPPORT. What each shared operation can do, said once: the transport primitives, a tx step, the effect of a received
byte. -/

namespace Sys2Proof.Laws

open Sys2Proof.Machine

/-- `recv_u8` gives the head of `RX` and takes it out; it changes nothing else (42_byte_transport.md R142). -/
theorem recvU8_some (s : State) (b : Byte) (t : State) :
    recvU8 s = some (b, t) ↔ ∃ rest, s.rx = b :: rest ∧ t = { s with rx := rest } := by
  unfold recvU8
  cases h : s.rx with
  | nil => simp
  | cons c rest => simp [eq_comm]

/-- `recv_u8` blocks exactly when `RX` is empty. -/
theorem recvU8_none (s : State) : recvU8 s = none ↔ s.rx = [] := by
  unfold recvU8
  cases h : s.rx <;> simp

/-- `send_u8` appends its byte and changes nothing else, when `TX` has room (42_byte_transport.md R143). -/
theorem sendU8_some (b : Byte) (s t : State) :
    sendU8 b s = some t ↔ s.txRoom = true ∧ t = { s with tx := s.tx ++ [b] } := by
  unfold sendU8
  by_cases h : s.txRoom = true
  · simp [h, eq_comm]
  · simp [h]

/-- A tx step goes on when `TX` has room, and then appends its byte and sets the phase: nothing else. -/
theorem sendThen_next (b : Byte) (ph : Phase) (s t : State) :
    sendThen b ph s = .next t ↔ s.txRoom = true ∧ t = { s with tx := s.tx ++ [b], pc := ph } := by
  unfold sendThen sendU8
  by_cases h : s.txRoom = true
  · simp [h, eq_comm]
  · simp [h]

/-- With room in `TX` a tx step answers a next state. -/
theorem sendThen_room (b : Byte) (ph : Phase) (s : State) (h : s.txRoom = true) :
    sendThen b ph s = .next { s with tx := s.tx ++ [b], pc := ph } :=
  (sendThen_next b ph s _).mpr ⟨h, rfl⟩

/-- A tx step never refuses, and faults only on a full `TX`. -/
theorem sendThen_full (b : Byte) (ph : Phase) (s : State) (h : s.txRoom = false) :
    sendThen b ph s = .fault .stuckTx := by
  unfold sendThen sendU8
  simp [h]

/-- A received byte has an effect exactly in the phases of kind rx (30_encoding.md R95, R98). -/
theorem receiveByte_isSome (b : Byte) (s : State) : (receiveByte b s).isSome = true ↔ s.pc.kind = .rx := by
  unfold receiveByte Phase.kind
  cases s.pc <;> simp

/-- Everything the effect of a received byte leaves alone, whatever the phase: the parameters, the counter, `OUT` and
both queues (the byte itself was taken from `RX` before). -/
theorem receiveByte_keeps (b : Byte) (s t : State) (h : receiveByte b s = some t) :
    t.cfg = s.cfg ∧ t.counter = s.counter ∧ t.outBuf = s.outBuf ∧ t.rx = s.rx ∧ t.tx = s.tx := by
  unfold receiveByte at h
  split at h <;> simp only [Option.some.injEq, reduceCtorEq] at h <;> subst h <;> simp

/-- `receive_code` answers what the phase's rule says of the code, and refuses where the phase consumes nothing. -/
theorem receiveCode_next (mn : String) (code : Byte) (s t : State) :
    receiveCode mn code s = .next t ↔ receiveByte code s = some t := by
  unfold receiveCode
  cases receiveByte code s <;> simp

end Sys2Proof.Laws
end

