-- ==== Sys2Proof/Laws/PerInstr.lean ====
section
/-! SUPPORT. Statements about every instruction as syntax, one lemma per constructor. `AtMostOneByte`: whatever the phase,
the decoder consumes at most one byte for an instruction, and none where the device itself acts (00_scope.md R17). -/

namespace Sys2Proof.Laws.AtMostOneByte

open Sys2Proof Sys2Proof.Machine

/-- The instruction's words are at most one byte in a phase of kind rx and none in any other. -/
def Statement (i : Instr) : Prop :=
  ∀ ph : Phase, (encode ph i).length ≤ 1 ∧ (ph.kind ≠ .rx → encode ph i = [])

/-- Both parts hold of an optional byte taken only in phases of kind rx. -/
theorem statement_of (i : Instr) : Statement i := by
  intro ph
  unfold encode
  cases ph.kind <;> cases wireByte i <;> simp

theorem sendKey : Statement .sendKey := statement_of _
theorem sendNonce : Statement .sendNonce := statement_of _
theorem encrypt : Statement .encrypt := statement_of _
theorem sendCipher : Statement .sendCipher := statement_of _
theorem ack : Statement .ack := statement_of _
theorem nack : Statement .nack := statement_of _
theorem keyFrame (b : Byte) : Statement (.keyFrame b) := statement_of _
theorem nonceFrame (b : Byte) : Statement (.nonceFrame b) := statement_of _
theorem packetRx (b : Byte) : Statement (.packetRx b) := statement_of _
theorem packetTx : Statement .packetTx := statement_of _

end Sys2Proof.Laws.AtMostOneByte
end

