-- ==== Sys2Proof/Laws/Phase.lean ====
section
/-! SUPPORT. The phase register: the successor of each counted phase, spelt as the phase rules of the spec spell it, and
the size of the phase set (10_state.md R31). -/

namespace Sys2Proof.Laws

open Sys2Proof.Machine

/-- 43_session_provisioning.md R153. -/
theorem afterKeyByte_eq : ∀ n, Phase.afterKeyByte n = if n = 31 then .keyAck2 else .keyData (n + 1) := by decide

/-- 43_session_provisioning.md R158. -/
theorem afterNonceByte_eq : ∀ n, Phase.afterNonceByte n = if n = 7 then .nonceAck2 else .nonceData (n + 1) := by decide

/-- 44_session_encrypt_cycle.md R169. -/
theorem afterRxByte_eq : ∀ p n, Phase.afterRxByte p n = if n = 15 then .rxCsum p else .rxData p (n + 1) := by decide

/-- 44_session_encrypt_cycle.md R171. -/
theorem afterRxPacket_eq : ∀ p, Phase.afterRxPacket p = if p = 3 then .encrypt else .rxData (p + 1) 0 := by decide

/-- 44_session_encrypt_cycle.md R177. -/
theorem afterTxByte_eq : ∀ p n, Phase.afterTxByte p n = if n = 15 then .txCsum p else .txData p (n + 1) := by decide

/-- 44_session_encrypt_cycle.md R179. -/
theorem afterTxPacket_eq : ∀ p, Phase.afterTxPacket p = if p = 3 then .waitEnc else .txData (p + 1) 0 := by decide

/-- The phases in the order of the table of 10_state.md R31. -/
def phases : List Phase :=
  [.waitKey, .keyAck1] ++ (List.finRange 32).map .keyData ++ [.keyAck2, .waitNonce, .nonceAck1]
    ++ (List.finRange 8).map .nonceData ++ [.nonceAck2, .waitEnc, .encAck]
    ++ (List.finRange 4).flatMap (fun p => (List.finRange 16).map (.rxData p)) ++ (List.finRange 4).map .rxCsum
    ++ (List.finRange 4).map .rxReply ++ [.encrypt, .announce, .announceAck]
    ++ (List.finRange 4).flatMap (fun p => (List.finRange 16).map (.txData p)) ++ (List.finRange 4).map .txCsum
    ++ (List.finRange 4).map .txAck ++ [.halt]

/-- There are 196 phases (10_state.md R31). -/
theorem length_phases : phases.length = 196 := by simp [phases]

/-- Every phase is one of them, once. -/
theorem mem_phases (ph : Phase) : ph ∈ phases := by
  cases ph <;> simp [phases]

theorem nodup_phases : phases.Nodup := by decide +kernel

end Sys2Proof.Laws
end

