-- ==== Sys2Proof/Laws/Step.lean ====
section
/-! SUPPORT. What a step of the machine is, said once for each kind of phase (00_scope.md R17): a proof about steps splits
on the kind and cites one of these, and never unfolds `step`, `fetch` or `decode`. -/

namespace Sys2Proof.Laws

open Sys2Proof Sys2Proof.Machine

/-- In a phase of kind rx with a byte waiting, the step is the effect the decode table gives that byte (30_encoding.md
R98), whether the byte is an instruction or not. -/
theorem step_receiving (s : State) (b : Byte) (rest : List Byte) (hk : s.pc.kind = .rx) (hr : s.rx = b :: rest) :
    ∃ t, receiveByte b { s with rx := rest } = some t ∧ step s = .next t := by
  obtain ⟨cfg, key, nonce, counter, inBuf, outBuf, m, pc, rx, tx⟩ := s
  simp only at hk hr
  subst hr
  cases pc <;> simp only [Phase.kind, reduceCtorEq] at hk
  case waitKey =>
    by_cases h : b = Config.codeSendKey <;>
      simp [step, fetch, decode, ownInstr, Phase.kind, decodeByte, recvU8, receiveByte, h, exec, execSendKey, receiveCode]
  case waitNonce =>
    by_cases h : b = Config.codeSendNonce <;>
      simp [step, fetch, decode, ownInstr, Phase.kind, decodeByte, recvU8, receiveByte, h, exec, execSendNonce, receiveCode]
  case waitEnc =>
    by_cases h : b = Config.codeEncrypt <;>
      simp [step, fetch, decode, ownInstr, Phase.kind, decodeByte, recvU8, receiveByte, h, exec, execEncrypt, receiveCode]
  case announceAck =>
    by_cases h : b = Config.codeAck
    · simp [step, fetch, decode, ownInstr, Phase.kind, decodeByte, receiveByte, h, exec, execAck, receiveCode]
    · by_cases h' : b = Config.codeNack
      · subst h'
        simp [step, fetch, decode, ownInstr, Phase.kind, decodeByte, receiveByte, h, exec, execNack, receiveCode]
      · simp [step, fetch, decode, ownInstr, Phase.kind, decodeByte, recvU8, receiveByte, h, h']
  case txAck p =>
    by_cases h : b = Config.codeAck
    · simp [step, fetch, decode, ownInstr, Phase.kind, decodeByte, receiveByte, h, exec, execAck, receiveCode]
    · by_cases h' : b = Config.codeNack
      · subst h'
        simp [step, fetch, decode, ownInstr, Phase.kind, decodeByte, receiveByte, h, exec, execNack, receiveCode]
      · simp [step, fetch, decode, ownInstr, Phase.kind, decodeByte, recvU8, receiveByte, h, h']
  all_goals
    simp [step, fetch, decode, ownInstr, Phase.kind, decodeByte, receiveByte, exec, execKeyFrame, execNonceFrame,
      execPacketRx]

/-- In a phase of kind rx with nothing waiting the device is stuck (42_byte_transport.md R142). -/
theorem step_receiving_nothing (s : State) (hk : s.pc.kind = .rx) (hr : s.rx = []) : step s = .fault .stuckRx := by
  obtain ⟨cfg, key, nonce, counter, inBuf, outBuf, m, pc, rx, tx⟩ := s
  simp only at hk hr
  subst hr
  cases pc <;> simp_all [Phase.kind, step, fetch, decode, ownInstr, recvU8]

/-- The phase after a tx step. -/
def phaseAfterSend (s : State) : Phase :=
  match s.pc with
  | .keyAck1 => .keyData 0
  | .keyAck2 => .waitNonce
  | .nonceAck1 => .nonceData 0
  | .nonceAck2 => .waitEnc
  | .encAck => .rxData 0 0
  | .rxReply p => if s.matchFlag then Phase.afterRxPacket p else .rxData p 0
  | .announce => .announceAck
  | .txData p n => Phase.afterTxByte p n
  | .txCsum p => .txAck p
  | ph => ph

/-- In a phase of kind tx the step sends the phase's byte and goes on, or is stuck on a full `TX`. -/
theorem step_sending (s : State) (hk : s.pc.kind = .tx) :
    ∃ b, byteSent s = some b ∧ step s = sendThen b (phaseAfterSend s) s := by
  obtain ⟨cfg, key, nonce, counter, inBuf, outBuf, m, pc, rx, tx⟩ := s
  cases pc <;> simp only [Phase.kind, reduceCtorEq] at hk
  case rxReply p =>
    cases m <;> simp [step, fetch, decode, ownInstr, byteSent, phaseAfterSend, exec, execAck, execNack, sendAck, sendNack]
  all_goals
    simp [step, fetch, decode, ownInstr, byteSent, phaseAfterSend, exec, execAck, execSendCipher, execPacketTx, sendAck,
      announceRule, txDataRule, txCsumRule]

/-- In `P_ENCRYPT` the step is the cipher step (44_session_encrypt_cycle.md R172). -/
theorem step_encrypting (s : State) (hk : s.pc = .encrypt) : step s = .next (encryptRule s) := by
  obtain ⟨cfg, key, nonce, counter, inBuf, outBuf, m, pc, rx, tx⟩ := s
  simp only at hk
  subst hk
  simp [step, fetch, decode, ownInstr, exec, execEncrypt]

/-- In `P_HALT` there is no step (60_exceptions.md R200). -/
theorem step_halted (s : State) (hk : s.pc = .halt) : step s = .fault .halted := by
  simp [step, fetch, decode, ownInstr, Phase.kind, hk]

/-- The four kinds, exhaustively. -/
theorem kind_cases (ph : Phase) : ph.kind = .rx ∨ ph.kind = .tx ∨ ph = .encrypt ∨ ph = .halt := by
  cases ph <;> simp [Phase.kind]

/-- Everything a step that goes on can be. -/
theorem step_next_cases (s t : State) (h : step s = .next t) :
    (∃ b rest, s.pc.kind = .rx ∧ s.rx = b :: rest ∧ receiveByte b { s with rx := rest } = some t)
    ∨ (∃ b, s.pc.kind = .tx ∧ s.txRoom = true ∧ byteSent s = some b
        ∧ t = { s with tx := s.tx ++ [b], pc := phaseAfterSend s })
    ∨ (s.pc = .encrypt ∧ t = encryptRule s) := by
  rcases kind_cases s.pc with hk | hk | hk | hk
  · cases hr : s.rx with
    | nil => rw [step_receiving_nothing s hk hr] at h; cases h
    | cons b rest =>
      obtain ⟨u, hu, hs⟩ := step_receiving s b rest hk hr
      rw [hs] at h; cases h
      exact .inl ⟨b, rest, hk, rfl, hu⟩
  · obtain ⟨b, hb, hs⟩ := step_sending s hk
    rw [hs, sendThen_next] at h
    exact .inr (.inl ⟨b, hk, h.1, hb, h.2⟩)
  · rw [step_encrypting s hk] at h; cases h
    exact .inr (.inr ⟨hk, rfl⟩)
  · rw [step_halted s hk] at h; cases h

end Sys2Proof.Laws
end

