-- ==== Sys2Proof/Laws/Run.lean ====
section
/-! SUPPORT. What a run can do and how it stands, said once: recording its outputs does not touch the system, a block comes
out exactly when one is accepted, no byte the device sends is lost, and each status holds exactly where
70_reset_and_hazards.md R226 puts it. -/

namespace Sys2Proof.Laws

open Sys2Proof Sys2Proof.Machine

/-- An action of a run is that action of the system, and what comes out follows it. -/
theorem run_act_some (a : Action) (r r' : Run) :
    r.act a = some r' ↔
      act a r.state = some r'.state ∧ r'.taken = r.takenAfter a ∧ r'.outputs = r.outputsAfter a := by
  obtain ⟨t, bs, qs⟩ := r'
  unfold Run.act
  cases act a r.state <;> simp [eq_comm]

/-- Recording changes nothing: a run reaches the states the system reaches. -/
theorem run_acts_state (as : List Action) : ∀ r : Run, (Run.acts as r).map Run.state = acts as r.state := by
  induction as with
  | nil => intro r; rfl
  | cons a as ih =>
    intro r
    cases h : act a r.state with
    | none => simp [Run.acts, Run.act, acts, h]
    | some t => simpa [Run.acts, Run.act, acts, h] using ih { state := t, taken := r.takenAfter a, outputs := r.outputsAfter a }

/-- A step accepts a block exactly when it is `P_TX_ACK(3)` consuming an `ACK`. -/
theorem acceptsBlock_iff (s : State) :
    s.acceptsBlock = true ↔ s.pc = .txAck 3 ∧ ∃ rest, s.rx = Config.codeAck :: rest := by
  unfold State.acceptsBlock
  cases s.rx <;> simp

/-- Accepting a block leads to `P_WAIT_ENC` (44_session_encrypt_cycle.md R179) and takes the `ACK` off `RX`. -/
theorem step_acceptsBlock (s : State) (h : s.acceptsBlock = true) :
    ∃ rest, s.rx = Config.codeAck :: rest ∧ step s = .next { s with pc := .waitEnc, rx := rest } := by
  obtain ⟨hp, rest, hr⟩ := (acceptsBlock_iff s).mp h
  obtain ⟨t, ht, hs⟩ := step_receiving s Config.codeAck rest (by simp [hp, Phase.kind]) hr
  refine ⟨rest, hr, ?_⟩
  simp only [receiveByte, hp, txAckRule, if_true, Option.some.injEq] at ht
  rw [hs, ← ht]
  rfl

/-- A device step adds the block in `OUT` to the outputs when it accepts one and else nothing, and takes no byte. -/
theorem run_device (r r' : Run) (h : r.act .device = some r') :
    r'.taken = r.taken
    ∧ r'.outputs = if r.state.acceptsBlock then r.outputs ++ [r.state.outBuf.block] else r.outputs :=
  ((run_act_some _ _ _).mp h).2

/-- A step that accepts a block adds exactly one to the count. -/
theorem run_device_accepted (r r' : Run) (h : r.act .device = some r') :
    r'.accepted = if r.state.acceptsBlock then r.accepted + 1 else r.accepted := by
  unfold Run.accepted
  rw [(run_device r r' h).2]
  split <;> simp

/-- What the host has taken and what is still in `TX` are together what the device has sent: a device step adds the byte of
its label, if that is a tx step, and the host's actions add and lose nothing (20_memory.md R68). -/
theorem run_sent (a : Action) (r r' : Run) (h : r.act a = some r') (ha : ∀ u, a ≠ .reset u) :
    r'.taken ++ r'.state.tx
      = r.taken ++ r.state.tx ++ (if a = .device ∧ r.state.pc.kind = .tx then (byteSent r.state).toList else []) := by
  obtain ⟨hs, ht, -⟩ := (run_act_some a r r').mp h
  rw [ht]
  cases a with
  | reset u => exact absurd rfl (ha u)
  | hostSend b =>
    simp only [act] at hs
    split at hs <;> simp at hs
    simp [← hs, Run.takenAfter]
  | hostTake =>
    simp only [act] at hs
    cases hq : r.state.tx with
    | nil => simp [hq] at hs
    | cons b rest =>
      simp only [hq, Option.some.injEq] at hs
      simp [← hs, Run.takenAfter, hq]
  | device =>
    simp only [act] at hs
    cases hk : step r.state with
    | fault f => simp [hk] at hs
    | refused q => simp [hk] at hs
    | next t =>
      simp only [hk, Option.some.injEq] at hs
      subst hs
      rcases step_next_cases _ _ hk with ⟨b, rest, hp, -, hb⟩ | ⟨b, hp, -, hb, htt⟩ | ⟨hp, htt⟩
      · simp [Run.takenAfter, (receiveByte_keeps _ _ _ hb).2.2.2.2, hp]
      · rw [htt]; simp [Run.takenAfter, hp, hb]
      · rw [htt]; simp [Run.takenAfter, hp, Phase.kind, encryptRule]

/-- A complete run of `m` blocks, in the words of 70_reset_and_hazards.md R226. -/
theorem completes_iff (m : Nat) (r : Run) :
    r.completes m = true ↔ r.state.pc = .waitEnc ∧ r.state.rx = [] ∧ r.state.tx = [] ∧ 1 ≤ m ∧ r.accepted = m := by
  simp [Run.completes, and_assoc]

/-- `complete` is exactly the final-state predicate. -/
theorem runStatus_complete (m : Nat) (r : Run) : runStatus m r = .complete ↔ r.completes m = true := by
  unfold runStatus
  split_ifs <;> simp_all

/-- `halted` is exactly `P_HALT`. -/
theorem runStatus_halted (m : Nat) (r : Run) : runStatus m r = .halted ↔ r.state.pc = .halt := by
  have := completes_iff m r
  unfold runStatus
  split_ifs <;> simp_all

/-- `running` is exactly that the device's step is enabled. -/
theorem runStatus_running (m : Nat) (r : Run) : runStatus m r = .running ↔ r.state.enabled = true := by
  have hc := completes_iff m r
  have hw : r.state.pc = .waitEnc → r.state.rx = [] → r.state.enabled = false := by
    intro hp hr; simp [State.enabled, hp, Phase.kind, hr]
  have hh : r.state.pc = .halt → r.state.enabled = false := by
    intro hp; simp [State.enabled, hp, Phase.kind]
  unfold runStatus
  split_ifs <;> simp_all

/-- A run that has accepted no block is not complete, whatever `m`: not after provisioning, not after a reset. -/
theorem not_complete_of_none_accepted (m : Nat) (r : Run) (h : r.accepted = 0) : runStatus m r ≠ .complete := by
  rw [Ne, runStatus_complete, completes_iff]
  omega

/-- A clean link delivers what was sent. -/
theorem deliver_clean (bytes : List Byte) (n : Nat) : deliver (List.replicate n .pass) bytes = bytes := by
  induction n generalizing bytes with
  | zero => rfl
  | succ n ih => cases bytes <;> simp [List.replicate_succ, deliver, ih]

end Sys2Proof.Laws
end

