-- ==== Sys2Proof/Tests/Slice0.lean ====
section
/-! SUPPORT. Our own tests. Expected values are those of spec/95_test_vectors.md (the section is named at each test) or are
written out by hand from the encoding tables of spec/30_encoding.md; none was taken from the model. The last part shows,
for every statement with hypotheses, values that meet them. -/

namespace Sys2Proof.Tests

open Sys2Proof Sys2Proof.Machine

/-- The state after reset with the device put in a phase. -/
def inPhase (ph : Phase) : State := { State.reset with pc := ph }

/-- The same with bytes waiting in `RX`. -/
def waiting (ph : Phase) (bytes : List Byte) : State := { State.reset with pc := ph, rx := bytes }

/-- The next state of an outcome, if it is one. -/
def nextOf : Host.Outcome State Fault Refusal → Option State
  | .next s => some s
  | .fault _ => none
  | .refused _ => none

/-- The fault of an outcome, if it is one. -/
def faultOf : Host.Outcome State Fault Refusal → Option Fault
  | .next _ => none
  | .fault f => some f
  | .refused _ => none

/-- Whether an outcome is the instruction's own refusal in a phase that does not select it. -/
def refusedAs (mnemonic : String) : Host.Outcome State Fault Refusal → Bool
  | .refused (.notSelected m) => m == mnemonic
  | _ => false

/-! ### WellFormed: an ill-formed placement for each instruction, which the check refuses (30_encoding.md R91, R98) -/

theorem test_illformed_sendKey : wellFormed .waitNonce false .sendKey = false := by decide
theorem test_illformed_sendNonce : wellFormed .waitKey false .sendNonce = false := by decide
theorem test_illformed_encrypt : wellFormed .waitNonce false .encrypt = false := by decide
theorem test_illformed_sendCipher : wellFormed .announceAck false .sendCipher = false := by decide
theorem test_illformed_ack_wait : wellFormed .waitKey false .ack = false := by decide
theorem test_illformed_ack_mismatch : wellFormed (.rxReply 2) false .ack = false := by decide
theorem test_illformed_nack_match : wellFormed (.rxReply 2) true .nack = false := by decide
theorem test_illformed_nack_wait : wellFormed .waitEnc false .nack = false := by decide
theorem test_illformed_keyFrame : wellFormed (.nonceData 0) false (.keyFrame 0x13) = false := by decide
theorem test_illformed_nonceFrame : wellFormed (.keyData 7) false (.nonceFrame 0) = false := by decide
theorem test_illformed_packetRx : wellFormed (.txData 0 0) false (.packetRx 0) = false := by decide
theorem test_illformed_packetTx : wellFormed (.rxCsum 0) false .packetTx = false := by decide

/-- A `CTRL` frame whose byte is no control code is ill formed, and is refused by name (R81). -/
theorem test_illformed_ctrl_frame :
    (Frame.ctrl 0x16).wellFormed = false ∧ (Frame.ctrl 0x16).readable = false ∧ decodeFrame .ctrl [0x16] = .error (.notAControlCode 0x16) := by decide

/-- The packet of section 4.3 is well formed with its checksum 0xE1 and with no other; with another it is read all the same
(R84). -/
theorem test_illformed_packet :
    (Frame.pkt #v[0x00000015, 0x000000B1, 0x000000C2, 0x13141500] 0xE1).wellFormed = true
    ∧ (Frame.pkt #v[0x00000015, 0x000000B1, 0x000000C2, 0x13141500] 0xE2).wellFormed = false
    ∧ decodeFrame .pkt [0x15, 0, 0, 0, 0xB1, 0, 0, 0, 0xC2, 0, 0, 0, 0, 0x15, 0x14, 0x13, 0xE2]
      = .ok (.pkt #v[0x00000015, 0x000000B1, 0x000000C2, 0x13141500] 0xE2, []) := by decide +kernel

/-! ### Decoding: words written out bit by bit (00_scope.md R9, 30_encoding.md R81 to R84) -/

/-- 0x13 = 0001 0011, 0x14 = 0001 0100, 0x15 = 0001 0101, 0xB1 = 1011 0001, 0xC2 = 1100 0010. -/
theorem test_decode_control_words :
    decode .waitKey false [0b00010011] = .ok (.sendKey, [])
    ∧ decode .waitNonce false [0b00010100] = .ok (.sendNonce, [])
    ∧ decode .waitEnc false [0b00010101] = .ok (.encrypt, [])
    ∧ decode (.txAck 3) false [0b10110001] = .ok (.ack, [])
    ∧ decode .announceAck false [0b11000010] = .ok (.nack, []) := by decide

/-- What the device itself sends takes no byte from the queue (30_encoding.md R91, `D>`). -/
theorem test_decode_own_events :
    decode .announce false [0x13] = .ok (.sendCipher, [0x13])
    ∧ decode .keyAck2 false [] = .ok (.ack, [])
    ∧ decode (.rxReply 1) true [] = .ok (.ack, []) ∧ decode (.rxReply 1) false [] = .ok (.nack, [])
    ∧ decode .encrypt false [] = .ok (.encrypt, []) ∧ decode (.txCsum 3) false [] = .ok (.packetTx, []) := by decide

/-- Positional frames: the same byte 0x15 in four phases (section 4.4). -/
theorem test_decode_by_position :
    decode (.keyData 31) false [0x15] = .ok (.keyFrame 0x15, [])
    ∧ decode (.nonceData 0) false [0x15] = .ok (.nonceFrame 0x15, [])
    ∧ decode (.rxData 3 15) false [0x15] = .ok (.packetRx 0x15, [])
    ∧ decode (.rxCsum 0) false [0x15] = .ok (.packetRx 0x15, []) := by decide

/-- Rejections by name (section 4.4; R98). -/
theorem test_decode_rejects :
    decode .waitEnc false [0xB1] = .error (.strayByte 0xB1)
    ∧ decode .announceAck false [0x15] = .error (.notAReply 0x15)
    ∧ decode (.txAck 0) false [0x00] = .error (.notAReply 0x00)
    ∧ decode .waitKey false [] = .error .incomplete
    ∧ decode .halt false [0xB1, 0x15, 0x13] = .error .halted := by decide

/-- Section 4.2: the key frame `01 02 .. 20`. -/
theorem test_key_frame :
    decodeFrame .keyf [0x01, 0x02, 0x03, 0x04, 0x05, 0x06, 0x07, 0x08, 0x09, 0x0A, 0x0B, 0x0C, 0x0D, 0x0E, 0x0F, 0x10, 0x11, 0x12, 0x13, 0x14, 0x15, 0x16, 0x17, 0x18, 0x19, 0x1A, 0x1B, 0x1C, 0x1D, 0x1E, 0x1F, 0x20]
      = .ok (.keyf #v[0x04030201, 0x08070605, 0x0C0B0A09, 0x100F0E0D, 0x14131211, 0x18171615, 0x1C1B1A19, 0x201F1E1D], []) := by decide

/-- Section 4.2: the nonce frame, and the 64-bit nonce it is. -/
theorem test_nonce_frame :
    decodeFrame .noncef [0x03, 0x01, 0x04, 0x01, 0x05, 0x09, 0x02, 0x06, 0xEE]
      = .ok (.noncef #v[0x01040103, 0x06020905], [0xEE])
    ∧ join64 #v[0x01040103, 0x06020905] = 0x0602090501040103 := by decide

/-- Section 4.3: a packet, both ways. -/
theorem test_packet_frame :
    encodeFrame (.pkt #v[0x00000015, 0x000000B1, 0x000000C2, 0x13141500] 0xE1)
      = [0x15, 0, 0, 0, 0xB1, 0, 0, 0, 0xC2, 0, 0, 0, 0, 0x15, 0x14, 0x13, 0xE1]
    ∧ packetBytes #v[0x03020100, 0x07060504, 0x0B0A0908, 0x0F0E0D0C, 0, 0, 0, 0, 0, 0, 0, 0, 0, 0, 0, 0] 0
      = [0, 1, 2, 3, 4, 5, 6, 7, 8, 9, 0x0A, 0x0B, 0x0C, 0x0D, 0x0E, 0x0F, 0x3C] := by decide +kernel

/-- Section 4.1: words and bytes. -/
theorem test_word_le :
    wordLE 0x80 0 0 0 = 0x00000080 ∧ wordLE 0xE3 0xBE 0x8F 0xDD = 0xDD8FBEE3 ∧ wordLE 0 0 0 0xB1 = 0xB1000000
    ∧ bytesLE 0x04030201 = [1, 2, 3, 4] := by decide

/-- The rows of spec/opcode_table.json that a word alone can be: its instruction is decoded. -/
theorem test_table_words :
    decodeTableWord 8 0x13 = some .sendKey ∧ decodeTableWord 8 0x14 = some .sendNonce
    ∧ decodeTableWord 8 0x15 = some .encrypt ∧ decodeTableWord 8 0xB1 = some .ack ∧ decodeTableWord 8 0xC2 = some .nack
    ∧ decodeTableWord 256 0x2080 = some (.keyFrame 0x80) ∧ decodeTableWord 64 0x0103 = some (.nonceFrame 0x03)
    ∧ decodeTableWord 136 0xAA = some (.packetRx 0xAA) := by decide

/-- And the step after the word is placed runs it, from the state after reset. -/
theorem test_placed_words_run :
    (nextOf (step (State.reset.withFetchWord 8 0x13))).map (·.pc) = some .keyAck1
    ∧ (nextOf (step (State.reset.withFetchWord 8 0x14))).map (·.pc) = some .nonceAck1
    ∧ (nextOf (step (State.reset.withFetchWord 8 0x15))).map (·.pc) = some .encAck
    ∧ (nextOf (step (State.reset.withFetchWord 8 0xB1))).map (·.pc) = some (.txData 1 0)
    ∧ (nextOf (step (State.reset.withFetchWord 8 0xC2))).map (·.pc) = some (.txData 0 0)
    ∧ (nextOf (step (State.reset.withFetchWord 256 0x80))).map (·.key[0]) = some 0x80
    ∧ (nextOf (step (State.reset.withFetchWord 64 0x03))).map (·.nonce[0]) = some 0x03
    ∧ (nextOf (step (State.reset.withFetchWord 136 0xAA))).map (·.inBuf.read 0) = some 0xAA := by decide

/-! ### The checksum (section 3) -/

theorem test_csum_rounds :
    csumBit 0x00 true = 0x8C ∧ csumBit 0x8C false = 0x46 ∧ csumBit 0x23 false = 0x9D ∧ csumByte 0x3C 0xA5 = 0x8D := by decide

theorem test_csum_spans :
    csum [] = 0x00 ∧ csum [0x01] = 0x5E ∧ csum [0x80] = 0x8C ∧ csum [0x01, 0x00] = 0xC4 ∧ csum [0x01, 0x02] = 0x78
    ∧ csum [0x02, 0x01] = 0xCF ∧ csum [0x31, 0x32, 0x33, 0x34, 0x35, 0x36, 0x37, 0x38, 0x39] = 0xA1 := by decide +kernel

/-- Section 3.4: the one two-bit error that does not show. -/
theorem test_csum_undetected :
    csum [0x00, 0x01, 0x02, 0x03, 0x04, 0x05, 0x06, 0x07, 0x08, 0x09, 0x0A, 0x0B, 0x0C, 0x0D, 0x0E, 0x0F] = 0x3C
    ∧ csum [0x01, 0x01, 0x02, 0x03, 0x04, 0x05, 0x06, 0x07, 0x08, 0x09, 0x0A, 0x0B, 0x0C, 0x0D, 0x0E, 0x8F] = 0x3C
    ∧ flipBit (flipBit [0x00, 0x01, 0x02, 0x03, 0x04, 0x05, 0x06, 0x07, 0x08, 0x09, 0x0A, 0x0B, 0x0C, 0x0D, 0x0E, 0x0F] 0) 127
      = [0x01, 0x01, 0x02, 0x03, 0x04, 0x05, 0x06, 0x07, 0x08, 0x09, 0x0A, 0x0B, 0x0C, 0x0D, 0x0E, 0x8F] := by decide +kernel

/-! ### The cipher core (section 2) -/

theorem test_rotl :
    rotl 0x12345678 9 = 0x68ACF024 ∧ rotl 0x80000000 1 = 0x00000001 ∧ rotl 0xC0000001 18 = 0x00070000
    ∧ rotl 0x12345678 32 = 0x12345678 := by decide

theorem test_qr :
    qr 0xE7E8C006 0xC4F9417D 0x6479B4B2 0x68C67137 = (0xE876D72B, 0x9361DFD5, 0xF1460244, 0x948541A3)
    ∧ qr 0xFFFFFFFF 0 0 1 = (0x00080000, 0x00000000, 0xFFFFFFFF, 0xFFFFFFFE) := by decide

/-- Section 2.3, `X[i] = i`. -/
theorem test_column_round :
    columnRound #v[0, 1, 2, 3, 4, 5, 6, 7, 8, 9, 10, 11, 12, 13, 14, 15]
      = #v[0x20560736, 0xC3E2C001, 0x00103002, 0x00000D03, 0x00000604, 0x703B0FA6, 0x07020004, 0x001A2407, 0x000C0808, 0x00000309, 0xC0181C42, 0x46214008, 0x81C1800D, 0x00061C0D, 0x0000080E, 0x903D18E2] := by
  decide +kernel

theorem test_row_round :
    rowRound #v[0, 1, 2, 3, 4, 5, 6, 7, 8, 9, 10, 11, 12, 13, 14, 15]
      = #v[0x881581CD, 0x00000181, 0x00030202, 0x60706003, 0x2351A005, 0xD8308D6F, 0x00000486, 0x00091607, 0x00132A08, 0x6672600B, 0x284D9A1C, 0x0000098B, 0x00000E8C, 0x001D360D, 0xA893200D, 0x586AA2CE] := by
  decide +kernel

/-- Section 2.4. -/
theorem test_build :
    build Config.default.sigma #v[0x04030201, 0x08070605, 0x0C0B0A09, 0x100F0E0D, 0x14131211, 0x18171615, 0x1C1B1A19, 0x201F1E1D] #v[0x01040103, 0x06020905] #v[2, 1]
      = #v[0x61707865, 0x04030201, 0x08070605, 0x0C0B0A09, 0x100F0E0D, 0x3320646E, 0x01040103, 0x06020905, 0x00000002, 0x00000001, 0x79622D32, 0x14131211, 0x18171615, 0x1C1B1A19, 0x201F1E1D, 0x6B206574] := by decide

/-- Section 1.1, counter 0: ten double-rounds, the feed-forward and the exclusive-or with an all-zero block. -/
theorem test_known_answer :
    encryptBlock Config.default.sigma #v[0x80, 0, 0, 0, 0, 0, 0, 0] #v[0, 0] #v[0, 0] (Vector.replicate 16 0)
      = (#v[0xDD8FBEE3, 0xE3A2EC8B, 0x47F98EEA, 0xE7A6295B, 0xE1513900, 0x385C7A09, 0x5F7A3BD2, 0x44689FAD, 0x55972CB2, 0xC723279E, 0xE43FBDCB, 0x079A8DFC, 0x832A6544, 0x469C2AE7, 0x4DAF7618, 0x17A1F17E], #v[1, 0]) := by
  decide +kernel

/-- Section 2.7: the carry, and the wrap. -/
theorem test_inc_counter :
    incCounter #v[0xFFFFFFFF, 0x00000001] = #v[0, 2] ∧ incCounter #v[0xFFFFFFFF, 0xFFFFFFFF] = #v[0, 0] := by decide

/-! ### Single steps (section 5; the row is named) -/

/-- Rows 1, 2, 3. -/
theorem test_sendKey :
    (nextOf (exec .sendKey (inPhase .waitKey))).map (·.pc) = some .keyAck1
    ∧ nextOf (step (waiting .waitKey [0x14, 0x13])) = some (waiting .waitKey [0x13])
    ∧ raised (waiting .waitKey [0x14, 0x13]) = some (.strayByte 0x14)
    ∧ faultOf (step (inPhase .waitKey)) = some .stuckRx := by decide

/-- Rows 10, 11. -/
theorem test_sendNonce :
    (nextOf (exec .sendNonce (inPhase .waitNonce))).map (·.pc) = some .nonceAck1
    ∧ nextOf (step (waiting .waitNonce [0x13])) = some (inPhase .waitNonce)
    ∧ nextOf (exec .sendKey (inPhase .waitNonce)) = some (inPhase .waitNonce) := by decide

/-- Rows 6, 7, 8: lanes of the key, control codes as data, the last byte. -/
theorem test_keyFrame :
    (nextOf (step { waiting (.keyData 6) [0x13] with key := #v[0, 0xEEEE0605, 0, 0, 0, 0, 0, 0] })).map (fun t => (t.key[1], t.pc))
      = some (0xEE130605, .keyData 7)
    ∧ (nextOf (exec (.keyFrame 0x20) (inPhase (.keyData 31)))).map (fun t => (t.key[7], t.pc)) = some (0x20000000, .keyAck2)
    ∧ refusedAs "KEY_FRAME" (exec (.keyFrame 0x20) (inPhase .waitKey)) = true := by decide

/-- Rows 12, 13. -/
theorem test_nonceFrame :
    (nextOf (exec (.nonceFrame 0x05) (inPhase (.nonceData 4)))).map (fun t => (t.nonce[1], t.pc)) = some (0x05, .nonceData 5)
    ∧ (nextOf (step (waiting (.nonceData 7) [0x06]))).map (fun t => (t.nonce, t.pc)) = some (#v[0, 0x06000000], .nonceAck2) := by
  decide

/-- Rows 15, 16, and 25 as to the counter and the phase. -/
theorem test_encrypt :
    (nextOf (exec .encrypt (inPhase .waitEnc))).map (·.pc) = some .encAck
    ∧ nextOf (step (waiting .waitEnc [0xB1])) = some (inPhase .waitEnc)
    ∧ (nextOf (step (inPhase .encrypt))).map (fun t => (t.counter, t.pc)) = some (#v[1, 0], .announce) := by decide

/-- Row 25: the first word of the known-answer block, as bytes in `OUT`. -/
theorem test_encrypt_out :
    (nextOf (step { inPhase .encrypt with key := #v[0x80, 0, 0, 0, 0, 0, 0, 0] })).map (·.outBuf.readBytes 0 4)
      = some [0xE3, 0xBE, 0x8F, 0xDD] := by decide +kernel

/-- Rows 18, 19. -/
theorem test_packetRx_data :
    (nextOf (step { waiting (.rxData 2 5) [0x0A] with inBuf := [(36, 0x09)] })).map (fun t => (t.inBuf.word 9, t.pc))
      = some (0x00000A09, .rxData 2 6)
    ∧ (nextOf (exec (.packetRx 0x07) (inPhase (.rxData 1 15)))).map (fun t => (t.inBuf.read 31, t.pc)) = some (0x07, .rxCsum 1) := by
  decide

/-- Packet 1 of rows 20 and 21: `04 04 04 04 05 .. 07`. -/
def packetOne : Memory := Memory.writeBytes [] 16 [4, 4, 4, 4, 5, 5, 5, 5, 6, 6, 6, 6, 7, 7, 7, 7]

/-- Rows 20, 21. -/
theorem test_packetRx_csum :
    (nextOf (step { waiting (.rxCsum 1) [0xAC] with inBuf := packetOne })).map (fun t => (t.matchFlag, t.pc)) = some (true, .rxReply 1)
    ∧ (nextOf (step { waiting (.rxCsum 1) [0xAD] with inBuf := packetOne })).map (fun t => (t.matchFlag, t.pc)) = some (false, .rxReply 1)
    ∧ raised { waiting (.rxCsum 1) [0xAD] with inBuf := packetOne } = some (.checksumMismatch 1) := by decide +kernel

/-- Rows 4, 22, 24, 27, 34, 37. -/
theorem test_ack :
    (nextOf (step (inPhase .keyAck1))).map (fun t => (t.tx, t.pc)) = some ([0xB1], .keyData 0)
    ∧ (nextOf (step { inPhase (.rxReply 1) with matchFlag := true })).map (fun t => (t.tx, t.pc)) = some ([0xB1], .rxData 2 0)
    ∧ (nextOf (step { inPhase (.rxReply 3) with matchFlag := true })).map (·.pc) = some .encrypt
    ∧ (nextOf (step (waiting .announceAck [0xB1]))).map (·.pc) = some (.txData 0 0)
    ∧ (nextOf (step (waiting (.txAck 0) [0xB1]))).map (·.pc) = some (.txData 1 0)
    ∧ (nextOf (step (waiting (.txAck 3) [0xB1]))).map (·.pc) = some .waitEnc := by decide

/-- Rows 23, 28, 29, 35, 36. -/
theorem test_nack :
    (nextOf (step (inPhase (.rxReply 1)))).map (fun t => (t.tx, t.pc)) = some ([0xC2], .rxData 1 0)
    ∧ (nextOf (step (waiting .announceAck [0xC2]))).map (·.pc) = some .halt
    ∧ (nextOf (step (waiting .announceAck [0x15]))).map (·.pc) = some .halt
    ∧ (nextOf (step (waiting (.txAck 2) [0xC2]))).map (·.pc) = some (.txData 2 0)
    ∧ (nextOf (step (waiting (.txAck 2) [0x00]))).map (·.pc) = some (.txData 2 0)
    ∧ raised (waiting (.txAck 2) [0x00]) = some (.peerReject 2 0x00) := by decide

/-- Row 26, and a full `TX`. -/
theorem test_sendCipher :
    (nextOf (step (inPhase .announce))).map (fun t => (t.tx, t.pc)) = some ([0x15], .announceAck)
    ∧ faultOf (step { inPhase .announce with cfg := { Config.default with txDepth := some 0 } }) = some .stuckTx := by decide

/-- The known-answer packet 0 in `OUT` (section 1.1). -/
def packetZero : Memory :=
  Memory.writeBytes [] 0 [0xE3, 0xBE, 0x8F, 0xDD, 0x8B, 0xEC, 0xA2, 0xE3, 0xEA, 0x8E, 0xF9, 0x47, 0x5B, 0x29, 0xA6, 0xE7]

/-- Rows 30, 31, 32, 33. -/
theorem test_packetTx :
    (nextOf (step { inPhase (.txData 0 0) with outBuf := packetZero })).map (fun t => (t.tx, t.pc)) = some ([0xE3], .txData 0 1)
    ∧ (nextOf (step { inPhase (.txData 0 3) with outBuf := packetZero })).map (fun t => (t.tx, t.pc)) = some ([0xDD], .txData 0 4)
    ∧ (nextOf (step { inPhase (.txData 0 15) with outBuf := packetZero })).map (fun t => (t.tx, t.pc)) = some ([0xE7], .txCsum 0)
    ∧ (nextOf (step { inPhase (.txCsum 0) with outBuf := packetZero })).map (fun t => (t.tx, t.pc)) = some ([0x63], .txAck 0) := by
  decide +kernel

/-- Rows 38, 39: the halt reads nothing, and only reset leaves it. -/
theorem test_halt_and_reset :
    faultOf (step (waiting .halt [0xB1, 0x15, 0x13])) = some .halted
    ∧ (act (.reset ⟨#v[1, 2, 3, 4, 5, 6, 7, 8], #v[9, 9], Vector.replicate 16 7, Vector.replicate 16 0, true⟩)
        { inPhase .halt with counter := #v[5, 0] }).map (fun t => (t.pc, t.counter, t.key[0])) = some (.waitKey, #v[0, 0], 1) := by
  decide

/-- Section 7.1: a silent peer leaves the device stuck, not halted. -/
theorem test_run_status :
    runStatus 1 (Run.start (inPhase .announceAck)) = .stuck ∧ runStatus 1 (Run.start (inPhase .halt)) = .halted
    ∧ runStatus 1 (Run.start (waiting .announceAck [0xB1])) = .running := by decide

/-- A run that has accepted some blocks so far. -/
def runWith (s : State) (blocks : List Block) : Run := { state := s, taken := [], outputs := blocks }

/-- 70_reset_and_hazards.md R226: a run of two blocks is complete after the second `ACK` at `P_TX_ACK(3)` and not before;
a run that has only been provisioned is complete for no number of blocks. -/
theorem test_run_complete :
    (((runWith (waiting (.txAck 3) [0xB1]) [Vector.replicate 16 7]).act .device).map (runStatus 2)) = some .complete
    ∧ (((runWith (waiting (.txAck 3) [0xB1]) []).act .device).map (runStatus 2)) = some .stuck
    ∧ (((runWith (waiting (.txAck 3) [0xB1, 0x15]) [Vector.replicate 16 7]).act .device).map (runStatus 2)) = some .running
    ∧ runStatus 0 (Run.start (inPhase .waitEnc)) = .stuck ∧ runStatus 1 (Run.start (inPhase .waitEnc)) = .stuck := by decide

/-- 70_reset_and_hazards.md R225: the block comes out with the `ACK` of packet 3, after those before it, and not with a
rejection or with the `ACK` of another packet; what the host takes is kept. -/
theorem test_run_outputs :
    (((runWith { waiting (.txAck 3) [0xB1] with outBuf := [(0, 0xE3), (60, 0x17)] } [Vector.replicate 16 7]).act .device).map Run.outputs)
      = some [Vector.replicate 16 7, #v[0xE3, 0, 0, 0, 0, 0, 0, 0, 0, 0, 0, 0, 0, 0, 0, 0x17]]
    ∧ (((runWith (waiting (.txAck 3) [0xC2]) [Vector.replicate 16 7]).act .device).map Run.outputs) = some [Vector.replicate 16 7]
    ∧ (((runWith (waiting (.txAck 2) [0xB1]) []).act .device).map Run.outputs) = some []
    ∧ ((Run.acts [.hostTake, .hostTake] (Run.start { inPhase .waitEnc with tx := [0xB1, 0x15, 9] })).map Run.taken)
      = some [0xB1, 0x15] := by decide

/-- 70_reset_and_hazards.md R225: a fault script, the result written out by hand. -/
theorem test_deliver :
    deliver [.pass, .drop, .corrupt 9, .insert 7] [1, 2, 3, 4, 5] = [1, 9, 7, 4, 5] ∧ deliver [.drop, .insert 7] [] = [7] := by
  decide

/-- The buffers: a write keeps the form, writing zero removes the entry, a write order does not show. -/
theorem test_memory_canonical :
    Memory.write (Memory.write [] 5 1) 3 2 = Memory.write (Memory.write [] 3 2) 5 1
    ∧ Memory.write [(3, 2), (5, 1)] 5 0 = [(3, 2)] ∧ Memory.wf [(5, 1), (3, 2)] = false ∧ Memory.wf [(3, 0)] = false := by decide

/-! ### Witnesses: for every statement with hypotheses, values that meet all of them, at the ends of their ranges -/

/-- Whether an outcome is a next state. -/
def goesOn (s : State) : Bool := (nextOf (step s)).isSome

theorem witness_DecodeOfEncodeIsIdentity :
    wellFormed .waitKey false .sendKey = true ∧ wellFormed (.rxReply 0) true .ack = true
    ∧ wellFormed (.rxReply 3) false .nack = true ∧ wellFormed (.keyData 31) true (.keyFrame 0xFF) = true
    ∧ wellFormed (.rxCsum 3) false (.packetRx 0x00) = true ∧ wellFormed (.txData 3 15) false .packetTx = true := by decide

theorem witness_DecodeAcceptsOnlyEncodings :
    decode (.nonceData 7) false [0x14, 0x15] = .ok (.nonceFrame 0x14, [0x15])
    ∧ decode .encrypt true [0x14] = .ok (.encrypt, [0x14]) := by decide

theorem witness_DecodeRejectsExactlyByName :
    (Phase.txAck 3).kind = .rx ∧ decode (.txAck 3) true [] = .error .incomplete
    ∧ decode .waitNonce true [0x13, 0x14] = .error (.strayByte 0x13)
    ∧ decode (.txAck 3) false [0x15] = .error (.notAReply 0x15) ∧ decode .halt false [0x13] = .error .halted := by decide

theorem witness_FrameDecodeOfEncodeIsIdentity :
    (Frame.ctrl 0xC2).readable = true ∧ (Frame.noncef #v[0, 0xFFFFFFFF]).readable = true
    ∧ (Frame.pkt #v[0, 1, 2, 3] 0xFF).readable = true := by decide

theorem witness_FrameDecodeAcceptsOnlyEncodings :
    decodeFrame .ctrl [0xB1, 0x00] = .ok (.ctrl 0xB1, [0x00])
    ∧ decodeFrame .noncef [1, 0, 0, 0, 0, 0, 0, 0x80] = .ok (.noncef #v[1, 0x80000000], [])
    ∧ decodeFrame .pkt (List.replicate 16 0 ++ [0x00, 5]) = .ok (.pkt #v[0, 0, 0, 0] 0x00, [5])
    ∧ decodeFrame .pkt (List.replicate 16 0 ++ [0x01]) = .ok (.pkt #v[0, 0, 0, 0] 0x01, []) := by decide

theorem witness_WordsAndBytesAgree :
    (0 : Nat) < 4 ∧ (3 : Nat) < 4 ∧ (0 : Nat) < 8 ∧ (7 : Nat) < 8 ∧ (getLane 0x80000001 3).getLsbD 7 = true
    ∧ (getLane 0x80000001 0).getLsbD 0 = true := by decide

theorem witness_ChecksumIsLinear : ([] : List Byte).length = ([] : List Byte).length
    ∧ ([0x01, 0x02] : List Byte).length = ([0xFF, 0x80] : List Byte).length := by decide

theorem witness_ChecksumDetectsErrors :
    (List.replicate 16 (0xA5 : Byte)).length = 16 ∧ (0 : Nat) < 127 ∧ (127 : Nat) < 128
    ∧ csum (flipBit (flipBit (List.replicate 16 0) 0) 127) = csum (List.replicate 16 0)
    ∧ csum (flipBit (flipBit (List.replicate 16 0) 0) 126) ≠ csum (List.replicate 16 0) := by decide +kernel

theorem witness_RotationMovesBits : (0 : Nat) < 32 ∧ (31 : Nat) < 32 ∧ (rotl 0x00000001 33).getLsbD 1 = true := by decide

theorem witness_QuarterRoundsOfARoundCommute :
    Config.cols.reverse.Perm Config.cols ∧ Config.rows.reverse.Perm Config.rows :=
  ⟨List.reverse_perm _, List.reverse_perm _⟩

theorem witness_CounterIncrementsAsOneValue :
    (#v[0xFFFFFFFF, 0xFFFFFFFF] : Halves)[0] = 0xFFFFFFFF ∧ (#v[0xFFFFFFFE, 0] : Halves)[0] ≠ 0xFFFFFFFF := by decide

theorem witness_StepRunsDecodedInstruction :
    decode (waiting (.rxData 3 15) [0xC2, 1]).pc false (waiting (.rxData 3 15) [0xC2, 1]).rx = .ok (.packetRx 0xC2, [1])
    ∧ decode (inPhase .announce).pc false (inPhase .announce).rx = .ok (.sendCipher, []) := by decide

theorem witness_StepIsTakenExactlyWhenEnabled :
    (waiting .waitKey [0]).enabled = true ∧ (inPhase .encrypt).enabled = true ∧ (inPhase .announce).enabled = true
    ∧ (inPhase .waitKey).pc.kind = .rx ∧ (inPhase .waitKey).rx = []
    ∧ { inPhase .announce with cfg := { Config.default with txDepth := some 0 } }.txRoom = false
    ∧ (inPhase .halt).pc = .halt := by decide

theorem witness_StepCarriesItsLabel :
    goesOn (waiting (.keyData 0) [7]) = true ∧ goesOn (inPhase (.txData 3 15)) = true ∧ goesOn (inPhase .encrypt) = true := by
  decide

theorem witness_PhasesFollowTheGraph :
    goesOn (waiting (.keyData 31) [7]) = true ∧ goesOn (waiting (.rxData 3 15) [7]) = true
    ∧ goesOn (waiting .announceAck [0]) = true ∧ goesOn (inPhase (.rxReply 3)) = true := by decide

theorem witness_SessionStatesFollowTheirEdges :
    goesOn (inPhase .keyAck2) = true ∧ goesOn (waiting (.txAck 3) [0xB1]) = true ∧ goesOn (waiting .announceAck [0]) = true := by
  decide

theorem witness_WaitsTakeOnlyTheirCode :
    (Phase.waitKey, (0x13 : Byte), Phase.keyAck1) ∈ [(Phase.waitKey, (0x13 : Byte), Phase.keyAck1), (.waitNonce, 0x14, .nonceAck1),
      (.waitEnc, 0x15, .encAck)]
    ∧ (waiting .waitKey [0x13]).pc = .waitKey ∧ (waiting .waitKey [0x13, 1]).rx = 0x13 :: [1]
    ∧ (waiting .waitEnc [0xB1]).pc = .waitEnc ∧ (waiting .waitEnc [0xB1]).rx = 0xB1 :: [] ∧ (0xB1 : Byte) ≠ 0x15 := by decide

theorem witness_RequestCodesStartTheirTransactions :
    (inPhase .waitKey).pc = .waitKey ∧ (inPhase .waitNonce).pc = .waitNonce ∧ (inPhase .waitEnc).pc = .waitEnc := by decide

theorem witness_ControlCodesRunInEveryReceivingPhase :
    (Instr.nack, (0xC2 : Byte)) ∈ [(Instr.sendKey, (0x13 : Byte)), (.sendNonce, 0x14), (.encrypt, 0x15), (.ack, 0xB1), (.nack, 0xC2)]
    ∧ (inPhase (.keyData 0)).pc.kind = .rx ∧ (inPhase (.txAck 3)).pc.kind = .rx := by decide

theorem witness_AcknowledgementsAreUnconditional :
    (Phase.encAck, Phase.rxData 0 0) ∈ [(Phase.keyAck1, Phase.keyData 0), (.keyAck2, .waitNonce), (.nonceAck1, .nonceData 0),
      (.nonceAck2, .waitEnc), (.encAck, .rxData 0 0)]
    ∧ (inPhase .encAck).pc = .encAck ∧ (inPhase .encAck).txRoom = true
    ∧ { inPhase .encAck with cfg := { Config.default with txDepth := some 1 } }.txRoom = true := by decide

theorem witness_KeyByteGoesToItsLane :
    (inPhase (.keyData 0)).pc = .keyData 0 ∧ (inPhase (.keyData 31)).pc = .keyData 31 ∧ (31 : Fin 32).val = 4 * (7 : Fin 8).val + 3 := by
  decide

theorem witness_NonceByteGoesToItsLane :
    (inPhase (.nonceData 0)).pc = .nonceData 0 ∧ (inPhase (.nonceData 7)).pc = .nonceData 7 := by decide

theorem witness_PayloadByteIsStoredInPlace :
    (inPhase (.rxData 0 0)).pc = .rxData 0 0 ∧ (inPhase (.rxData 3 15)).pc = .rxData 3 15 := by decide

theorem witness_ChecksumByteSetsMatch :
    (inPhase (.rxCsum 0)).pc = .rxCsum 0 ∧ (inPhase (.rxCsum 3)).pc = .rxCsum 3
    ∧ csum ((inPhase (.rxCsum 3)).inBuf.readBytes 48 16) = 0x00 := by decide +kernel

theorem witness_ReplyFollowsMatch :
    (inPhase (.rxReply 3)).pc = .rxReply 3 ∧ (inPhase (.rxReply 3)).txRoom = true ∧ (inPhase (.rxReply 3)).matchFlag = false
    ∧ { inPhase (.rxReply 3) with matchFlag := true }.matchFlag = true := by decide

theorem witness_EncryptStepEncryptsOnce : (inPhase .encrypt).pc = .encrypt := by decide

theorem witness_AnnouncementIsSent : (inPhase .announce).pc = .announce ∧ (inPhase .announce).txRoom = true := by decide

theorem witness_HandshakeByteDecides : (inPhase .announceAck).pc = .announceAck ∧ (0xC2 : Byte) ≠ 0xB1 := by decide

theorem witness_CiphertextPacketBytesAreSent :
    (inPhase (.txData 0 0)).txRoom = true ∧ (inPhase (.txData 0 0)).pc = .txData 0 0
    ∧ (inPhase (.txData 3 15)).pc = .txData 3 15 ∧ (inPhase (.txCsum 3)).pc = .txCsum 3 := by decide

theorem witness_PacketReplyDecides :
    (inPhase (.txAck 0)).pc = .txAck 0 ∧ (inPhase (.txAck 3)).pc = .txAck 3 ∧ (0x00 : Byte) ≠ 0xB1 := by decide

theorem witness_UnselectedInstructionsAreRefused :
    (∀ n, (inPhase .waitKey).pc ≠ .keyData n) ∧ (∀ n, (inPhase .waitKey).pc ≠ .nonceData n)
    ∧ (∀ p, (inPhase .waitKey).pc ≠ .rxCsum p) ∧ (∀ p n, (inPhase .waitKey).pc ≠ .rxData p n)
    ∧ (∀ p, (inPhase .waitKey).pc ≠ .txCsum p) ∧ (∀ p n, (inPhase .waitKey).pc ≠ .txData p n)
    ∧ (inPhase .halt).pc ≠ .announce ∧ (inPhase .halt).pc.kind ≠ .rx ∧ (inPhase .halt).pc ≠ .encrypt
    ∧ wellFormed (inPhase .halt).pc false .ack = false ∧ wellFormed (inPhase .halt).pc false .nack = false := by decide

/-- A next state of every shape the frame speaks of: the key frame, the nonce frame, the payload, the checksum byte, the
cipher step, a tx step, a scan. -/
theorem witness_InstructionsLeaveTheRestAlone :
    (nextOf (exec (.keyFrame 1) (inPhase (.keyData 31)))).isSome ∧ (nextOf (exec (.nonceFrame 1) (inPhase (.nonceData 7)))).isSome
    ∧ (nextOf (exec (.packetRx 1) (inPhase (.rxData 3 15)))).isSome ∧ (nextOf (exec (.packetRx 1) (inPhase (.rxCsum 3)))).isSome
    ∧ (nextOf (exec .encrypt (inPhase .encrypt))).isSome ∧ (nextOf (exec .packetTx (inPhase (.txCsum 3)))).isSome
    ∧ (nextOf (exec .nack (inPhase .waitKey))).isSome := by decide +kernel

theorem witness_CounterAdvancesOnlyAtEncryption :
    goesOn { inPhase .encrypt with counter := #v[0xFFFFFFFF, 0xFFFFFFFF] } = true ∧ goesOn (waiting (.txAck 3) [0xC2]) = true := by
  decide

theorem witness_OnlyDesyncHalts :
    goesOn (waiting .announceAck [0xC2]) = true ∧ goesOn (waiting .announceAck [0xB1]) = true ∧ goesOn (waiting (.txAck 0) [0xC2]) = true := by
  decide

theorem witness_HaltLastsUntilReset :
    (waiting .halt [1]).pc = .halt ∧ (∀ u, Action.reset u ∉ [Action.hostSend 0x13, .hostTake])
    ∧ (acts [.hostSend 0x13, .hostTake] { waiting .halt [1] with tx := [0x15] }).isSome = true := by
  refine ⟨by decide, by simp, by decide⟩

theorem witness_ResetIsTheOnlyWayBack :
    (act .device (waiting .announceAck [0])).isSome = true ∧ (act (.hostSend 0x13) (inPhase .halt)).isSome = true
    ∧ (act .device (inPhase .encrypt)).isSome = true ∧ ∀ u, Action.device ≠ .reset u :=
  ⟨by decide, by decide, by decide, by simp⟩

theorem witness_StepKeepsStateWellFormed :
    { waiting (.rxData 3 15) [0xFF] with inBuf := [(3, 1), (63, 2)], cfg := { Config.default with rxDepth := some 1 } }.wf = true
    ∧ goesOn { waiting (.rxData 3 15) [0xFF] with inBuf := [(3, 1), (63, 2)], cfg := { Config.default with rxDepth := some 1 } } = true
    ∧ { inPhase .encrypt with outBuf := [(63, 1)] }.wf = true ∧ goesOn { inPhase .encrypt with outBuf := [(63, 1)] } = true := by
  decide

theorem witness_EveryActionKeepsStateWellFormed :
    (inPhase .halt).wf = true
    ∧ (acts [.hostSend 0xFF, .reset ⟨#v[0, 0, 0, 0, 0, 0, 0, 0], #v[0, 0], Vector.replicate 16 0, Vector.replicate 16 0xFF000000, true⟩]
        (inPhase .halt)).isSome = true := by decide

theorem witness_KeyAndNonceAreFixedOnceProvisioned :
    (inPhase .waitEnc).pc.provisioned = true ∧ (∀ u, Action.reset u ∉ [Action.hostSend 0x13, .device, .device])
    ∧ (acts [.hostSend 0x13, .device] (inPhase .waitEnc)).isSome = true := by
  refine ⟨by decide, by simp, by decide⟩

/-- Two different states with nothing written, and two that differ in the rest of `K` in the middle of the key frame. -/
theorem witness_UnwrittenRegistersNeverShow :
    sameButUnwritten (waiting .waitKey [0x13]) { waiting .waitKey [0x13] with key := #v[1, 2, 3, 4, 5, 6, 7, 8], outBuf := [(0, 1)], matchFlag := true }
    ∧ sameButUnwritten (waiting (.keyData 1) [7]) { waiting (.keyData 1) [7] with key := #v[0xFFFFFF00, 2, 3, 4, 5, 6, 7, 8] } := by
  refine ⟨⟨rfl, rfl, rfl, rfl, rfl, by decide, by decide, fun a h => ?_, fun h => ?_, fun h => ?_⟩,
    ⟨rfl, rfl, rfl, rfl, rfl, by decide, by decide, fun a h => ?_, fun h => ?_, fun h => ?_⟩⟩
  all_goals exact absurd h (by decide +revert)

theorem witness_CipherStateShowsOnlyThroughEncryption :
    (waiting (.keyData 31) [9]).pc ≠ .encrypt ∧ goesOn (waiting (.keyData 31) [9]) = true
    ∧ (inPhase (.txCsum 3)).pc ≠ .encrypt ∧ goesOn (inPhase (.txCsum 3)) = true := by decide +kernel

theorem witness_StrayBytesAreScannedAway :
    (waiting .waitKey [0x14, 0x15, 0x13]).pc = .waitKey ∧ (0x13 : Byte) ∉ ([0x14, 0x15] : List Byte)
    ∧ (waiting .waitKey [0x14, 0x15, 0x13]).rx = [0x14, 0x15] ++ [0x13] := by decide

/-- The key of section 4.2. -/
def someKey : Key := #v[0x04030201, 0x08070605, 0x0C0B0A09, 0x100F0E0D, 0x14131211, 0x18171615, 0x1C1B1A19, 0x201F1E1D]

/-- A block. -/
def someBlock : Block := #v[0x00000015, 0x000000B1, 0x000000C2, 0x13141500, 4, 5, 6, 7, 8, 9, 10, 11, 12, 13, 14, 15]

theorem witness_KeyIsProvisioned :
    (waiting .waitKey (hostBytes (provisionKey someKey) ++ [0x14])).pc = .waitKey
    ∧ (waiting .waitKey (hostBytes (provisionKey someKey) ++ [0x14])).cfg.txDepth = none
    ∧ (waiting .waitKey (hostBytes (provisionKey someKey) ++ [0x14])).rx = hostBytes (provisionKey someKey) ++ [0x14] := ⟨rfl, rfl, rfl⟩

theorem witness_NonceIsProvisioned :
    (waiting .waitNonce (hostBytes (provisionNonce #v[0x01040103, 0x06020905]) ++ [0x15])).pc = .waitNonce
    ∧ (waiting .waitNonce (hostBytes (provisionNonce #v[0x01040103, 0x06020905]) ++ [0x15])).cfg.txDepth = none
    ∧ (waiting .waitNonce (hostBytes (provisionNonce #v[0x01040103, 0x06020905]) ++ [0x15])).rx
        = hostBytes (provisionNonce #v[0x01040103, 0x06020905]) ++ [0x15] := ⟨rfl, rfl, rfl⟩

/-- For an accepted packet 3 and a rejected packet 0. -/
theorem witness_PacketIsReceived :
    (waiting (.rxData 3 0) (List.replicate 16 0 ++ [0x00])).pc = .rxData 3 0
    ∧ (waiting (.rxData 3 0) (List.replicate 16 0 ++ [0x00])).cfg.txDepth = none
    ∧ (List.replicate 16 (0 : Byte)).length = 16 ∧ csum (List.replicate 16 0) = 0x00 ∧ csum (List.replicate 16 0) ≠ 0x01
    ∧ (waiting (.rxData 3 0) (List.replicate 16 0 ++ [0x00])).rx = List.replicate 16 0 ++ 0x00 :: []
    ∧ (waiting (.rxData 0 0) (List.replicate 16 0 ++ [0x01])).pc = .rxData 0 0
    ∧ (waiting (.rxData 0 0) (List.replicate 16 0 ++ [0x01])).rx = List.replicate 16 0 ++ 0x01 :: [] := by decide +kernel

theorem witness_PacketIsSent :
    (waiting (.txData 3 0) [0xB1]).pc = .txData 3 0 ∧ (waiting (.txData 3 0) [0xB1]).cfg.txDepth = none
    ∧ (waiting (.txData 3 0) [0xB1]).rx = 0xB1 :: [] ∧ (waiting (.txData 0 0) [0xC2, 5]).rx = 0xC2 :: [5] := by decide

/-- The state of a clean cycle about to start, for a block. -/
def cycleStart : State :=
  let s := { inPhase .waitEnc with key := someKey, counter := #v[0xFFFFFFFF, 0] }
  { s with rx := hostBytes (encryptCycle someBlock (encryptBlock s.cfg.sigma s.key s.nonce s.counter someBlock).1) ++ [0x15] }

theorem witness_CleanCycleEncryptsOneBlock :
    cycleStart.pc = .waitEnc ∧ cycleStart.cfg.txDepth = none
    ∧ cycleStart.rx = hostBytes (encryptCycle someBlock
        (encryptBlock cycleStart.cfg.sigma cycleStart.key cycleStart.nonce cycleStart.counter someBlock).1) ++ [0x15] := ⟨rfl, rfl, rfl⟩

/-- The state of a session of two blocks about to start. -/
def sessionStart : State :=
  { State.reset with rx := hostBytes (session Config.default.sigma someKey #v[1, 2] State.reset.counter [someBlock, someBlock]) ++ [] }

theorem witness_SessionEncryptsEveryBlock :
    sessionStart.pc = .waitKey ∧ sessionStart.cfg.txDepth = none
    ∧ sessionStart.rx = hostBytes (session sessionStart.cfg.sigma someKey #v[1, 2] sessionStart.counter [someBlock, someBlock]) ++ [] :=
  ⟨rfl, rfl, rfl⟩

end Sys2Proof.Tests
end

section
/-! SUPPORT. Proofs of the statements about the scope of the system (00_scope.md): the well-formed states, the step and its
label, and the decoder's selection by phase. -/

namespace Sys2Proof.Proofs

open Sys2Proof Sys2Proof.Machine Sys2Proof.Laws

/-! ### Queues and their depths (00_scope.md R8) -/

@[simp] theorem fits_none (len : Nat) : fits none len = true := rfl

@[simp] theorem fits_some (d len : Nat) : fits (some d) len = true ↔ len ≤ d := by simp [fits]

theorem fits_of_le {depth : Option Nat} {len len' : Nat} (h : fits depth len = true) (hle : len' ≤ len) :
    fits depth len' = true := by
  cases depth with
  | none => rfl
  | some d => rw [fits_some] at h ⊢; omega

theorem fits_zero (depth : Option Nat) : fits depth 0 = true := by cases depth <;> simp

/-- Room in `TX` is room for one byte more. -/
theorem txRoom_iff (s : State) : s.txRoom = true ↔ fits s.cfg.txDepth (s.tx.length + 1) = true := by
  unfold State.txRoom
  cases s.cfg.txDepth <;> simp

/-- Room in `RX` is room for one byte more. -/
theorem rxRoom_iff (s : State) : s.rxRoom = true ↔ fits s.cfg.rxDepth (s.rx.length + 1) = true := by
  unfold State.rxRoom
  cases s.cfg.rxDepth <;> simp

/-! ### Well-formed states -/

theorem state_wf_iff (s : State) :
    s.wf = true ↔ s.inBuf.wf = true ∧ s.outBuf.wf = true
      ∧ fits s.cfg.rxDepth s.rx.length = true ∧ fits s.cfg.txDepth s.tx.length = true := by
  simp [State.wf, and_assoc]

/-- The only received byte that touches `IN` is a payload byte, and its address is within the buffer. -/
theorem receiveByte_inBuf_wf {b : Byte} {s t : State} (h : receiveByte b s = some t) (hw : s.inBuf.wf = true) :
    t.inBuf.wf = true := by
  cases hp : s.pc <;> simp only [receiveByte, hp, Option.some.injEq, reduceCtorEq] at h <;> subst h
  case rxData p n => exact wf_write _ _ b hw (packetAddr_lt p n.val n.isLt)
  all_goals simpa using hw

theorem step_keeps_wf {s t : State} (hs : s.wf = true) (h : step s = .next t) : t.wf = true := by
  obtain ⟨hin, hout, hrx, htx⟩ := (state_wf_iff s).mp hs
  rw [state_wf_iff]
  rcases step_next_cases s t h with ⟨b, rest, -, hr, hb⟩ | ⟨b, -, hroom, -, rfl⟩ | ⟨-, rfl⟩
  · obtain ⟨hcfg, -, hob, hq, hq'⟩ := receiveByte_keeps b _ t hb
    refine ⟨receiveByte_inBuf_wf hb hin, by rwa [hob], ?_, by rwa [hcfg, hq']⟩
    rw [hcfg, hq]
    exact fits_of_le hrx (by simp [hr])
  · exact ⟨hin, hout, hrx, by simpa using (txRoom_iff s).mp hroom⟩
  · exact ⟨hin, wf_writeBlock _ _ hout, hrx, htx⟩

/-- Reset writes both buffers as whole blocks and leaves the queues as they are or empty. -/
theorem resetAction_keeps_wf (u : ResetContents) {s : State} (hs : s.wf = true) : (resetAction u s).wf = true := by
  obtain ⟨-, -, hrx, htx⟩ := (state_wf_iff s).mp hs
  rw [state_wf_iff]
  refine ⟨wf_writeBlock [] _ wf_nil, wf_writeBlock [] _ wf_nil, ?_⟩
  cases hf : Config.resetFlushesQueues <;> simp [hf, hrx, htx, fits_zero]

/-! ### The actions of the system, one equivalence for each (00_scope.md R17, R18) -/

theorem act_device_some (s t : State) : act .device s = some t ↔ step s = .next t := by
  unfold act
  cases step s <;> simp

theorem act_hostSend_some (b : Byte) (s t : State) :
    act (.hostSend b) s = some t ↔ s.rxRoom = true ∧ t = { s with rx := s.rx ++ [b] } := by
  by_cases h : s.rxRoom = true <;> simp [act, h, eq_comm]

theorem act_hostTake_some (s t : State) :
    act .hostTake s = some t ↔ ∃ b rest, s.tx = b :: rest ∧ t = { s with tx := rest } := by
  unfold act
  cases s.tx <;> simp [eq_comm]

theorem act_reset_some (u : ResetContents) (s t : State) : act (.reset u) s = some t ↔ t = resetAction u s := by
  simp [act, eq_comm]

theorem acts_cons_some (a : Action) (as : List Action) (s t : State) :
    acts (a :: as) s = some t ↔ ∃ u, act a s = some u ∧ acts as u = some t := by
  rw [acts]
  cases act a s <;> simp

theorem act_keeps_wf {a : Action} {s t : State} (hs : s.wf = true) (h : act a s = some t) : t.wf = true := by
  obtain ⟨hin, hout, hrx, htx⟩ := (state_wf_iff s).mp hs
  cases a with
  | device => exact step_keeps_wf hs ((act_device_some s t).mp h)
  | hostSend b =>
    obtain ⟨hroom, rfl⟩ := (act_hostSend_some b s t).mp h
    exact (state_wf_iff _).mpr ⟨hin, hout, by simpa using (rxRoom_iff s).mp hroom, htx⟩
  | hostTake =>
    obtain ⟨b, rest, hq, rfl⟩ := (act_hostTake_some s t).mp h
    exact (state_wf_iff _).mpr ⟨hin, hout, hrx, fits_of_le htx (by simp [hq])⟩
  | reset u =>
    obtain rfl := (act_reset_some u s t).mp h
    exact resetAction_keeps_wf u hs

/-- What every action keeps, every run of the system keeps. -/
theorem acts_induction {P : State → Prop} (hstep : ∀ a s t, P s → act a s = some t → P t) :
    ∀ (as : List Action) (s t : State), P s → acts as s = some t → P t := by
  intro as
  induction as with
  | nil => intro s t hs h; cases h; exact hs
  | cons a as ih =>
    intro s t hs h
    obtain ⟨u, hu, ht⟩ := (acts_cons_some a as s t).mp h
    exact ih u t (hstep a s u hs hu) ht

/-- Settles O49: well-formedness is kept by each action, hence by every run. -/
theorem everyActionKeepsStateWellFormed : Obligations.EveryActionKeepsStateWellFormed :=
  acts_induction fun _ _ _ => act_keeps_wf

/-! ### When a step is taken (00_scope.md R17) -/

/-- `P_HALT` is the one phase without a step (10_state.md R31). -/
theorem kind_none_iff (ph : Phase) : ph.kind = .none ↔ ph = .halt := by
  cases ph <;> simp [Phase.kind]

theorem enabled_iff (s : State) :
    s.enabled = true ↔
      (s.pc.kind = .rx ∧ s.rx ≠ []) ∨ (s.pc.kind = .tx ∧ s.txRoom = true) ∨ s.pc.kind = .internal := by
  unfold State.enabled
  cases s.pc.kind <;> simp

/-- The outcome of a step: one of the three ways of blocking, each with its cause, or a next state where the step is
enabled. -/
theorem step_outcome_cases (s : State) :
    (s.pc.kind = .rx ∧ s.rx = [] ∧ step s = .fault .stuckRx)
    ∨ (s.pc.kind = .tx ∧ s.txRoom = false ∧ step s = .fault .stuckTx)
    ∨ (s.pc = .halt ∧ step s = .fault .halted)
    ∨ (s.enabled = true ∧ ∃ t, step s = .next t) := by
  rcases kind_cases s.pc with hk | hk | hk | hk
  · cases hr : s.rx with
    | nil => exact .inl ⟨hk, rfl, step_receiving_nothing s hk hr⟩
    | cons b rest =>
      obtain ⟨t, -, ht⟩ := step_receiving s b rest hk hr
      exact .inr (.inr (.inr ⟨(enabled_iff s).mpr (.inl ⟨hk, by simp [hr]⟩), t, ht⟩))
  · obtain ⟨b, -, hs⟩ := step_sending s hk
    cases hroom : s.txRoom with
    | false => exact .inr (.inl ⟨hk, rfl, hs.trans (sendThen_full _ _ _ hroom)⟩)
    | true =>
      exact .inr (.inr (.inr ⟨(enabled_iff s).mpr (.inr (.inl ⟨hk, hroom⟩)), _, hs.trans (sendThen_room _ _ _ hroom)⟩))
  · exact .inr (.inr (.inr ⟨(enabled_iff s).mpr (.inr (.inr (by simp [hk, Phase.kind]))), _, step_encrypting s hk⟩))
  · exact .inr (.inr (.inl ⟨hk, step_halted s hk⟩))

/-- Settles O21: in each of the four cases of `step_outcome_cases` the cause of that case holds and the causes of the
others do not. -/
theorem stepIsTakenExactlyWhenEnabled : Obligations.StepIsTakenExactlyWhenEnabled := by
  intro s
  rw [← kind_none_iff]
  rcases step_outcome_cases s with ⟨hk, hr, hs⟩ | ⟨hk, hroom, hs⟩ | ⟨hp, hs⟩ | ⟨he, t, hs⟩
  · simp [hs, hk, hr, enabled_iff]
  · simp [hs, hk, hroom, enabled_iff]
  · simp [hs, (kind_none_iff _).mpr hp, enabled_iff]
  · rcases (enabled_iff s).mp he with ⟨hk, hr⟩ | ⟨hk, hroom⟩ | hk
    · simp [hs, he, hk, hr]
    · simp [hs, he, hk, hroom]
    · simp [hs, he, hk]

/-! ### The label of a step (00_scope.md R17) -/

theorem label_receiving {s : State} {b : Byte} {rest : List Byte} (hk : s.pc.kind = .rx) (hr : s.rx = b :: rest) :
    label s = some (.rx b) := by
  simp [label, hk, hr]

theorem label_sending {s : State} {b : Byte} (hk : s.pc.kind = .tx) (hroom : s.txRoom = true)
    (hb : byteSent s = some b) : label s = some (.tx b) := by
  simp [label, hk, hroom, hb]

theorem label_encrypting {s : State} (hp : s.pc = .encrypt) : label s = some .tau := by
  simp [label, hp, Phase.kind]

/-- Settles O22, by the three things a step that goes on can be. -/
theorem stepCarriesItsLabel : Obligations.StepCarriesItsLabel := by
  intro s t h
  rcases step_next_cases s t h with ⟨b, rest, hk, hr, hb⟩ | ⟨b, hk, hroom, hb, rfl⟩ | ⟨hp, rfl⟩
  · obtain ⟨-, -, -, hrx, htx⟩ := receiveByte_keeps b _ t hb
    exact .inl ⟨hk, b, label_receiving hk hr, by rw [hr, hrx], htx⟩
  · exact .inr (.inl ⟨hk, b, label_sending hk hroom hb, rfl, rfl⟩)
  · exact .inr (.inr ⟨by rw [hp]; rfl, label_encrypting hp, rfl, rfl⟩)

/-! ### Decoding and running what is decoded (30_encoding.md R98) -/

/-- A phase that receives has no byte event of the device's own. -/
theorem ownInstr_receiving {ph : Phase} (m : Bool) (hk : ph.kind = .rx) : ownInstr ph m = none := by
  cases ph <;> simp_all [Phase.kind, ownInstr]

/-- In a phase that receives, the decoder reads the head byte by the decode table and leaves the rest. -/
theorem decode_receiving {ph : Phase} (m : Bool) (b : Byte) (rest : List Byte) (hk : ph.kind = .rx) :
    decode ph m (b :: rest) = (decodeByte ph b).map (·, rest) := by
  simp only [decode, ownInstr_receiving m hk, hk]
  cases decodeByte ph b <;> rfl

/-- Settles O1: seven rows of the decode table. -/
theorem controlCodesDecodeByPhase : Obligations.ControlCodesDecodeByPhase := by
  intro m p n rest
  refine ⟨?_, ?_, ?_, ?_, ?_, ?_, ?_⟩ <;> exact decode_receiving m _ rest rfl

theorem fetch_of_decode_ok {s : State} {i : Instr} {rest : List Byte}
    (h : decode s.pc s.matchFlag s.rx = .ok (i, rest)) : fetch s = .instr i { s with rx := rest } := by
  simp [fetch, h]

/-- Settles O20: what the fetch finds is the decoded instruction, and the step dispatches on it. -/
theorem stepRunsDecodedInstruction : Obligations.StepRunsDecodedInstruction := by
  intro s i rest h
  simp [step, fetch_of_decode_ok h]

end Sys2Proof.Proofs
end

section
/-! SUPPORT. Proofs of the statements about the state (10_state.md): the byte and the word view of a buffer, the phases a
step goes through, and what each step of the device and each instruction leaves unchanged. -/

namespace Sys2Proof.Proofs

open Sys2Proof Sys2Proof.Machine Sys2Proof.Laws

/-! ### Well-formed states -/

/-- Settles O47: `step_keeps_wf`, for each of the three things a step that goes on can be. -/
theorem stepKeepsStateWellFormed : Obligations.StepKeepsStateWellFormed :=
  fun _ _ => step_keeps_wf

/-- Settles O48: the buffers of the reset state list no byte, and its queues are empty. -/
theorem resetStateIsWellFormed : Obligations.ResetStateIsWellFormed :=
  (state_wf_iff _).mpr ⟨wf_nil, wf_nil, fits_zero _, fits_zero _⟩

/-! ### The lanes of a word (20_memory.md R51) -/

theorem getLsbD_getLane (w : Word) (k i : Nat) : (getLane w k).getLsbD i = (decide (i < 8) && w.getLsbD (8 * k + i)) := by
  simp [getLane]

/-- Bits `8k+7 : 8k` become the byte, the others stay (00_scope.md R13). -/
theorem getLsbD_setLane (w : Word) (k : Nat) (b : Byte) {i : Nat} (hi : i < 32) :
    (setLane w k b).getLsbD i = if 8 * k ≤ i ∧ i < 8 * k + 8 then b.getLsbD (i - 8 * k) else w.getLsbD i := by
  have hmask : (0xFF : Word).getLsbD (i - 8 * k) = decide (i - 8 * k < 8) := by
    have hmask' := BitVec.getLsbD_ofNat 32 (2 ^ 8 - 1) (i - 8 * k)
    rwa [Nat.testBit_two_pow_sub_one, decide_eq_true (show i - 8 * k < 32 by omega), Bool.true_and] at hmask'
  simp only [setLane, BitVec.getLsbD_or, BitVec.getLsbD_and, BitVec.getLsbD_not, BitVec.getLsbD_shiftLeft,
    BitVec.getLsbD_setWidth, hi, hmask, decide_true, Bool.true_and]
  by_cases hlo : i < 8 * k
  · simp [hlo, show ¬ 8 * k ≤ i by omega]
  · by_cases hhi : i < 8 * k + 8
    · simp [hlo, hhi, show 8 * k ≤ i by omega, show i - 8 * k < 8 by omega, show i - 8 * k < 32 by omega]
    · simp [hlo, hhi, show ¬ i - 8 * k < 8 by omega, BitVec.getLsbD_of_ge b (i - 8 * k) (by omega)]

/-- A lane read after a lane is written: the byte in its lane, the other lanes as before. -/
theorem getLane_setLane (w : Word) (b : Byte) {j k : Nat} (hj : j < 4) :
    getLane (setLane w k b) j = if j = k then b else getLane w j := by
  refine BitVec.eq_of_getLsbD_eq fun i hi => ?_
  rw [getLsbD_getLane, getLsbD_setLane w k b (by omega)]
  by_cases h : j = k
  · subst h; simp [hi]
  · rw [if_neg (by omega), if_neg h, getLsbD_getLane]

/-- A word is its four lanes. -/
theorem word_eq_of_lanes {v w : Word} (h : ∀ j < 4, getLane v j = getLane w j) : v = w := by
  refine BitVec.eq_of_getLsbD_eq fun i hi => ?_
  have hlane := congrArg (·.getLsbD (i % 8)) (h (i / 8) (by omega))
  simpa only [getLsbD_getLane, Nat.mod_lt i (show 8 > 0 by decide), decide_true, Bool.true_and, Nat.div_add_mod] using hlane

/-! ### The two views of a buffer (10_state.md R43) -/

theorem getLane_word (m : Memory) (i : Nat) {j : Nat} (hj : j < 4) : getLane (m.word i) j = m.read (4 * i + j) := by
  have hbytes := bytesLE_wordLE (m.read (4 * i)) (m.read (4 * i + 1)) (m.read (4 * i + 2)) (m.read (4 * i + 3))
  simp only [bytesLE, List.cons.injEq, and_true] at hbytes
  obtain ⟨h0, h1, h2, h3⟩ := hbytes
  interval_cases j <;> assumption

theorem getElem_block (m : Memory) {i : Nat} (hi : i < 16) : m.block[i] = m.word i := by
  interval_cases i <;> rfl

/-- The word view after a byte is written: one lane of one word changes. -/
theorem word_write (m : Memory) (a i : Nat) (b : Byte) :
    (m.write a b).word i = if a / 4 = i then setLane (m.word i) (a % 4) b else m.word i := by
  refine word_eq_of_lanes fun j hj => ?_
  rw [getLane_word _ _ hj, read_write]
  by_cases hi : a / 4 = i
  · rw [if_pos hi, getLane_setLane _ _ hj, getLane_word _ _ hj]
    exact if_congr (by omega) rfl rfl
  · rw [if_neg hi, getLane_word _ _ hj, if_neg (by omega)]

/-- Settles O8: word by word for the write, and a read is the lane that `getLane_word` names. -/
theorem bufferBytesAreWordLanes : Obligations.BufferBytesAreWordLanes := by
  intro m n b
  constructor
  · refine Vector.ext fun i hi => ?_
    rw [getElem_block _ hi, word_write, setFileByte, Vector.getElem_set, getElem_block _ (by omega), getElem_block _ hi]
    split
    · next h => rw [h]
    · rfl
  · rw [fileByte, getElem_block, getLane_word _ _ (Nat.mod_lt _ (by decide)), Nat.div_add_mod]

/-! ### The counter as one value (10_state.md R22) -/

theorem toNat_join64 (h : Halves) : (join64 h).toNat = 2 ^ 32 * h[1].toNat + h[0].toNat := by
  rw [join64, BitVec.toNat_append, Nat.shiftLeft_eq, Nat.mul_comm, Nat.two_pow_add_eq_or_of_lt h[0].isLt]

theorem join64_split64 (v : Word64) : join64 (split64 v) = v := by
  have hlo : (split64 v)[0].toNat = v.toNat % 2 ^ 32 := BitVec.toNat_setWidth 32 v
  have hhi : (split64 v)[1].toNat = v.toNat / 2 ^ 32 % 2 ^ 32 := by
    rw [← Nat.shiftRight_eq_div_pow, ← BitVec.toNat_ushiftRight, ← BitVec.toNat_setWidth]; rfl
  have hv := v.isLt
  exact BitVec.eq_of_toNat_eq (by rw [toNat_join64, hlo, hhi]; omega)

theorem toNat_incCounter_lo (C : Halves) : (incCounter C)[0].toNat = (C[0].toNat + 1) % 2 ^ 32 :=
  BitVec.toNat_add C[0] 1

/-- The carry out of the low half goes into the high half (41_cipher_core.md R132). -/
theorem toNat_incCounter_hi (C : Halves) :
    (incCounter C)[1].toNat = if C[0].toNat = 2 ^ 32 - 1 then (C[1].toNat + 1) % 2 ^ 32 else C[1].toNat := by
  have hcarry : C[0].toNat = 2 ^ 32 - 1 ↔ C[0] = 0xFFFFFFFF := BitVec.toNat_inj (y := 0xFFFFFFFF)
  rw [if_congr hcarry rfl rfl]
  exact (apply_ite BitVec.toNat _ _ _).trans (if_congr Iff.rfl (BitVec.toNat_add C[1] 1) rfl)

theorem join64_incCounter (C : Halves) : join64 (incCounter C) = join64 C + 1 := by
  apply BitVec.eq_of_toNat_eq
  have hlo := C[0].isLt
  have hhi := C[1].isLt
  rw [BitVec.toNat_add, toNat_join64, toNat_join64, toNat_incCounter_lo, toNat_incCounter_hi,
    show (1 : Word64).toNat = 1 from rfl]
  split <;> omega

/-- Settles O45: the counter is the initial value split in halves, the rest stands in the definition. -/
theorem resetStateHoldsTheSpecifiedValues : Obligations.ResetStateHoldsTheSpecifiedValues :=
  ⟨rfl, rfl, join64_split64 _, rfl, rfl, rfl⟩

/-! ### The phase after a step (10_state.md R33) -/

theorem receiveByte_kind {b : Byte} {s t : State} (h : receiveByte b s = some t) : s.pc.kind = .rx :=
  (receiveByte_isSome b s).mp (by simp [h])

theorem receiveByte_follows_graph {b : Byte} {s t : State} (h : receiveByte b s = some t) :
    graph s.pc b s.matchFlag = some t.pc := by
  cases hp : s.pc <;> simp only [receiveByte, hp, Option.some.injEq, reduceCtorEq] at h <;> subst h
  case waitKey => simp [graph, Config.codeSendKey, hp]
  case waitNonce => simp [graph, Config.codeSendNonce, hp]
  case waitEnc => simp [graph, Config.codeEncrypt, hp]
  case keyData n => simp [graph, afterKeyByte_eq]
  case nonceData n => simp [graph, afterNonceByte_eq]
  case rxData p n => simp [graph, afterRxByte_eq]
  case rxCsum p => rfl
  case announceAck => by_cases hb : b = 0xB1#8 <;> simp [graph, Config.codeAck, hb]
  case txAck p => by_cases hb : b = 0xB1#8 <;> simp [graph, Config.codeAck, afterTxPacket_eq, hb]

/-- A phase that sends consumes no byte: the graph gives its successor whatever `b` is. -/
theorem phaseAfterSend_follows_graph (b : Byte) {s : State} (hk : s.pc.kind = .tx) :
    graph s.pc b s.matchFlag = some (phaseAfterSend s) := by
  cases hp : s.pc <;> simp only [hp, Phase.kind, reduceCtorEq] at hk
  case rxReply p => cases hm : s.matchFlag <;> simp [graph, phaseAfterSend, hp, hm, afterRxPacket_eq]
  case txData p n => simp [graph, phaseAfterSend, hp, afterTxByte_eq]
  all_goals simp [graph, phaseAfterSend, hp]

/-- Settles O23, by the three things a step that goes on can be. -/
theorem phasesFollowTheGraph : Obligations.PhasesFollowTheGraph := by
  intro s t h
  rcases step_next_cases s t h with ⟨b, rest, -, hr, hb⟩ | ⟨b, hk, -, -, rfl⟩ | ⟨hp, rfl⟩
  · simpa [hr] using receiveByte_follows_graph hb
  · exact phaseAfterSend_follows_graph _ hk
  · rw [hp]; rfl

/-- Only packet 3 has no packet after it. -/
theorem val_next_packet : ∀ p : Fin 4, p ≠ 3 → (p + 1).val = p.val + 1 := by decide

/-- An arrow of the graph stays within a session state or is an edge between two (10_state.md R33, last paragraph). -/
theorem graph_sessionEdge {ph ph' : Phase} {b : Byte} {m : Bool} (h : graph ph b m = some ph') :
    ph'.sessionState = ph.sessionState ∨ sessionEdge ph.sessionState ph'.sessionState = true := by
  cases ph <;> simp only [graph, Option.some.injEq, reduceCtorEq] at h <;> subst h
  case rxReply p | txAck p =>
    split_ifs with _ hlast
    · exact .inl rfl
    · exact .inr (by simp [Phase.sessionState, sessionEdge, hlast])
    · exact .inr (by simp [Phase.sessionState, sessionEdge, val_next_packet p hlast])
  case keyAck2 | nonceAck2 | encAck => exact .inr rfl
  case announceAck => split_ifs <;> exact .inr rfl
  case waitKey | keyData | waitNonce | nonceData | waitEnc | rxData | txData => split_ifs <;> exact .inl rfl
  all_goals exact .inl rfl

/-- Settles O24: the phases follow the graph, and the graph follows the edges. -/
theorem sessionStatesFollowTheirEdges : Obligations.SessionStatesFollowTheirEdges :=
  fun s t h => graph_sessionEdge (phasesFollowTheGraph s t h)

/-- No arrow of the graph leads from a provisioned phase back to provisioning (43_session_provisioning.md R160). -/
theorem graph_provisioned {ph ph' : Phase} {b : Byte} {m : Bool} (h : graph ph b m = some ph')
    (hp : ph.provisioned = true) : ph'.provisioned = true := by
  cases ph <;> simp only [graph, Option.some.injEq, reduceCtorEq] at h <;> subst h
  case waitEnc | rxData | rxReply | announceAck | txData | txAck => split_ifs <;> rfl
  case encAck | rxCsum | encrypt | announce | txCsum => rfl
  all_goals cases hp

/-! ### What an event of the device writes (00_scope.md R17) -/

/-- What one byte event can be, run from a state with its byte, if it consumes one, already gone from `RX`: the effect of
a received byte, a byte sent, or the cipher step. A step and an execution of an instruction are both such events. -/
inductive Event (s t : State) : Prop where
  | received (b : Byte) (h : receiveByte b s = some t)
  | sent (b : Byte) (ph : Phase) (hk : s.pc.kind = .tx) (ht : t = { s with tx := s.tx ++ [b], pc := ph })
  | encrypted (hp : s.pc = .encrypt) (ht : t = encryptRule s)

theorem event_of_step {s t : State} (h : step s = .next t) : ∃ rest, Event { s with rx := rest } t := by
  rcases step_next_cases s t h with ⟨b, rest, -, -, hb⟩ | ⟨b, hk, -, -, ht⟩ | ⟨hp, ht⟩
  · exact ⟨rest, .received b hb⟩
  · exact ⟨s.rx, .sent b _ hk ht⟩
  · exact ⟨s.rx, .encrypted hp ht⟩

theorem event_of_receiveCode {mn : String} {code : Byte} {s t : State} (h : receiveCode mn code s = .next t) :
    Event s t :=
  .received code ((receiveCode_next mn code s t).mp h)

theorem event_of_sendThen {b : Byte} {ph : Phase} {s t : State} (hk : s.pc.kind = .tx)
    (h : sendThen b ph s = .next t) : Event s t :=
  .sent b ph hk ((sendThen_next b ph s t).mp h).2

theorem event_of_execEncrypt {s t : State} (h : execEncrypt s = .next t) : Event s t := by
  unfold execEncrypt at h
  split at h
  · next hp => cases h; exact .encrypted hp rfl
  · exact event_of_receiveCode h

theorem event_of_execSendCipher {s t : State} (h : execSendCipher s = .next t) : Event s t := by
  unfold execSendCipher at h
  split at h
  · next hp => exact event_of_sendThen (by rw [hp]; rfl) h
  · cases h

theorem event_of_execAck {s t : State} (h : execAck s = .next t) : Event s t := by
  unfold execAck at h
  split at h
  case h_6 p hp =>
    split at h
    · exact event_of_sendThen (by rw [hp]; rfl) h
    · cases h
  case h_7 => exact event_of_receiveCode h
  all_goals
    next hp => exact event_of_sendThen (by rw [hp]; rfl) h

theorem event_of_execNack {s t : State} (h : execNack s = .next t) : Event s t := by
  unfold execNack at h
  split at h
  · next hp =>
    split at h
    · cases h
    · exact event_of_sendThen (by rw [hp]; rfl) h
  · exact event_of_receiveCode h

theorem event_of_execKeyFrame {b : Byte} {s t : State} (h : execKeyFrame b s = .next t) : Event s t := by
  unfold execKeyFrame at h
  split at h
  · next hp => cases h; exact .received b (by simp [receiveByte, hp])
  · cases h

theorem event_of_execNonceFrame {b : Byte} {s t : State} (h : execNonceFrame b s = .next t) : Event s t := by
  unfold execNonceFrame at h
  split at h
  · next hp => cases h; exact .received b (by simp [receiveByte, hp])
  · cases h

theorem event_of_execPacketRx {b : Byte} {s t : State} (h : execPacketRx b s = .next t) : Event s t := by
  unfold execPacketRx at h
  split at h
  · next hp => cases h; exact .received b (by simp [receiveByte, hp])
  · next hp => cases h; exact .received b (by simp [receiveByte, hp])
  · cases h

theorem event_of_execPacketTx {s t : State} (h : execPacketTx s = .next t) : Event s t := by
  unfold execPacketTx at h
  split at h
  · next hp => exact event_of_sendThen (by rw [hp]; rfl) h
  · next hp => exact event_of_sendThen (by rw [hp]; rfl) h
  · cases h

/-- Every instruction that answers a next state is one byte event. -/
theorem event_of_exec {i : Instr} {s t : State} (h : exec i s = .next t) : Event s t := by
  cases i with
  | sendKey => exact event_of_receiveCode h
  | sendNonce => exact event_of_receiveCode h
  | encrypt => exact event_of_execEncrypt h
  | sendCipher => exact event_of_execSendCipher h
  | ack => exact event_of_execAck h
  | nack => exact event_of_execNack h
  | keyFrame b => exact event_of_execKeyFrame h
  | nonceFrame b => exact event_of_execNonceFrame h
  | packetRx b => exact event_of_execPacketRx h
  | packetTx => exact event_of_execPacketTx h

/-- Where a received byte is written: `K`, `N`, `MATCH` and `IN` each in their own phases only, and `IN` at the address of
the byte. With `receiveByte_keeps`, the whole frame of a received byte. -/
theorem receiveByte_writes {b : Byte} {s t : State} (h : receiveByte b s = some t) :
    ((∀ n, s.pc ≠ .keyData n) → t.key = s.key)
    ∧ ((∀ n, s.pc ≠ .nonceData n) → t.nonce = s.nonce)
    ∧ ((∀ p, s.pc ≠ .rxCsum p) → t.matchFlag = s.matchFlag)
    ∧ ((∀ p n, s.pc ≠ .rxData p n) → t.inBuf = s.inBuf)
    ∧ (∀ p n, s.pc = .rxData p n → t.inBuf = s.inBuf.write (packetAddr p n.val) b) := by
  cases hp : s.pc <;> simp only [receiveByte, hp, Option.some.injEq, reduceCtorEq] at h <;> subst h
  all_goals simp

/-- The frame of an event, field by field: what it may write in which phase, and that the rest stays (10_state.md R20 to
R27, R35). -/
structure EventFrame (s t : State) : Prop where
  cfg : t.cfg = s.cfg
  rx : t.rx = s.rx
  key : (∀ n, s.pc ≠ .keyData n) → t.key = s.key
  nonce : (∀ n, s.pc ≠ .nonceData n) → t.nonce = s.nonce
  counter : t.counter = if s.pc = .encrypt then incCounter s.counter else s.counter
  outBuf : s.pc ≠ .encrypt → t.outBuf = s.outBuf
  outBuf_beyond : ∀ a : Nat, 64 ≤ a → t.outBuf.read a = s.outBuf.read a
  matchFlag : (∀ p, s.pc ≠ .rxCsum p) → t.matchFlag = s.matchFlag
  inBuf : (∀ p n, s.pc ≠ .rxData p n) → t.inBuf = s.inBuf
  inBuf_stored : ∀ p n, s.pc = .rxData p n → ∃ b, t.inBuf = s.inBuf.write (packetAddr p n.val) b
  tx_kept : s.pc.kind ≠ .tx → t.tx = s.tx
  tx_sent : s.pc.kind = .tx → ∃ b, t.tx = s.tx ++ [b]

theorem receiveByte_frame {b : Byte} {s t : State} (h : receiveByte b s = some t) : EventFrame s t := by
  have hk := receiveByte_kind h
  have hne : s.pc ≠ .encrypt := by intro hp; simp [hp, Phase.kind] at hk
  obtain ⟨hcfg, hcounter, hout, hrx, htx⟩ := receiveByte_keeps b s t h
  obtain ⟨hkey, hnonce, hmatch, hin, hstored⟩ := receiveByte_writes h
  exact {
    cfg := hcfg, rx := hrx, key := hkey, nonce := hnonce, matchFlag := hmatch, inBuf := hin
    counter := by rw [hcounter, if_neg hne]
    outBuf := fun _ => hout
    outBuf_beyond := fun a _ => by rw [hout]
    inBuf_stored := fun p n hp => ⟨b, hstored p n hp⟩
    tx_kept := fun _ => htx
    tx_sent := fun hs => by simp [hk] at hs }

theorem send_frame {s : State} (b : Byte) (ph : Phase) (hk : s.pc.kind = .tx) :
    EventFrame s { s with tx := s.tx ++ [b], pc := ph } where
  cfg := rfl
  rx := rfl
  key _ := rfl
  nonce _ := rfl
  counter := by rw [if_neg (by intro hp; simp [hp, Phase.kind] at hk)]
  outBuf _ := rfl
  outBuf_beyond _ _ := rfl
  matchFlag _ := rfl
  inBuf _ := rfl
  inBuf_stored p n hp := by simp [hp, Phase.kind] at hk
  tx_kept hs := absurd hk hs
  tx_sent _ := ⟨b, rfl⟩

theorem encryptRule_frame {s : State} (hp : s.pc = .encrypt) : EventFrame s (encryptRule s) where
  cfg := rfl
  rx := rfl
  key _ := rfl
  nonce _ := rfl
  counter := by rw [if_pos hp]; rfl
  outBuf hne := absurd hp hne
  outBuf_beyond a ha := by rw [encryptRule_outBuf, read_writeBlock, dif_neg (by omega)]
  matchFlag _ := rfl
  inBuf _ := rfl
  inBuf_stored p n h := by simp [hp] at h
  tx_kept _ := rfl
  tx_sent hk := by simp [hp, Phase.kind] at hk

theorem event_frame {s t : State} (he : Event s t) : EventFrame s t := by
  cases he with
  | received b h => exact receiveByte_frame h
  | sent b ph hk ht => exact ht ▸ send_frame b ph hk
  | encrypted hp ht => exact ht ▸ encryptRule_frame hp

/-- Settles O40: an instruction is one event, and an event has its frame. -/
theorem instructionsLeaveTheRestAlone : Obligations.InstructionsLeaveTheRestAlone := by
  intro i s t h
  have hf := event_frame (event_of_exec h)
  refine ⟨hf.cfg, hf.rx, hf.key, hf.nonce, fun hne => ⟨?_, hf.outBuf hne⟩, fun _ => hf.outBuf_beyond, hf.matchFlag,
    hf.inBuf, fun p n hp a ha => ?_, hf.tx_kept, hf.tx_sent⟩
  · rw [hf.counter, if_neg hne]
  · obtain ⟨b, hb⟩ := hf.inBuf_stored p n hp
    rw [hb, read_write, if_neg ha]

/-- Settles O41: a step is one event, and only the cipher step increments. -/
theorem counterAdvancesOnlyAtEncryption : Obligations.CounterAdvancesOnlyAtEncryption := by
  intro s t h
  obtain ⟨rest, he⟩ := event_of_step h
  rw [(event_frame he).counter, apply_ite join64, join64_incCounter]

/-! ### Once provisioned (10_state.md R24) -/

/-- The device is provisioned, with this key and this nonce. -/
def ProvisionedWith (key : Key) (nonce : Halves) (s : State) : Prop :=
  s.pc.provisioned = true ∧ s.key = key ∧ s.nonce = nonce

/-- The frames that write `K` and `N` are outside the provisioned phases. -/
theorem step_keeps_provisionedWith {key : Key} {nonce : Halves} {s t : State} (hs : ProvisionedWith key nonce s)
    (h : step s = .next t) : ProvisionedWith key nonce t := by
  obtain ⟨hp, hkey, hnonce⟩ := hs
  obtain ⟨rest, he⟩ := event_of_step h
  have hf := event_frame he
  refine ⟨graph_provisioned (phasesFollowTheGraph s t h) hp, (hf.key fun n hn => ?_).trans hkey,
    (hf.nonce fun n hn => ?_).trans hnonce⟩
  all_goals
    replace hn : s.pc = _ := hn
    rw [hn] at hp
    cases hp

theorem act_keeps_provisionedWith {key : Key} {nonce : Halves} {a : Action} {s t : State} (ha : ∀ u, a ≠ .reset u)
    (hs : ProvisionedWith key nonce s) (h : act a s = some t) : ProvisionedWith key nonce t := by
  cases a with
  | device => exact step_keeps_provisionedWith hs ((act_device_some s t).mp h)
  | hostSend b => obtain ⟨-, rfl⟩ := (act_hostSend_some b s t).mp h; exact hs
  | hostTake => obtain ⟨b, rest, -, rfl⟩ := (act_hostTake_some s t).mp h; exact hs
  | reset u => exact absurd rfl (ha u)

/-- What every action but reset keeps, every run without a reset keeps. -/
theorem acts_induction_of_no_reset {P : State → Prop}
    (hstep : ∀ a s t, (∀ u, a ≠ .reset u) → P s → act a s = some t → P t) :
    ∀ (as : List Action) (s t : State), (∀ u, Action.reset u ∉ as) → P s → acts as s = some t → P t := by
  intro as
  induction as with
  | nil => intro s t _ hs h; cases h; exact hs
  | cons a as ih =>
    intro s t hno hs h
    obtain ⟨u, hu, ht⟩ := (acts_cons_some a as s t).mp h
    have ha : ∀ v, a ≠ .reset v := fun v hv => hno v (by simp [hv])
    exact ih u t (fun v hv => hno v (List.mem_cons_of_mem a hv)) (hstep a s u ha hs hu) ht

/-- Settles O50: the invariant is `ProvisionedWith` the key and the nonce the run starts with. -/
theorem keyAndNonceAreFixedOnceProvisioned : Obligations.KeyAndNonceAreFixedOnceProvisioned :=
  fun as s t hp hno h =>
    acts_induction_of_no_reset (P := ProvisionedWith s.key s.nonce) (fun _ _ _ => act_keeps_provisionedWith) as s t hno
      ⟨hp, rfl, rfl⟩ h

/-! ### What the cipher state shows (10_state.md R23) -/

/-- The state with another key, nonce and counter. -/
def withCipher (k : Key) (n c : Halves) (s : State) : State := { s with key := k, nonce := n, counter := c }

/-- The effect of a received byte on everything but `K`, `N` and `C` does not depend on them. -/
theorem receiveByte_withCipher {b : Byte} {s t : State} (k : Key) (n c : Halves) (h : receiveByte b s = some t) :
    ∃ k' n' c', receiveByte b (withCipher k n c s) = some (withCipher k' n' c' t) := by
  cases hp : s.pc <;> simp only [receiveByte, hp, Option.some.injEq, reduceCtorEq] at h <;> subst h
  case keyData j => exact ⟨setFileByte k j b, n, c, by simp [receiveByte, withCipher, hp, keyDataRule]⟩
  case nonceData j => exact ⟨k, setFileByte n j b, c, by simp [receiveByte, withCipher, hp, nonceDataRule]⟩
  case announceAck =>
    refine ⟨k, n, c, ?_⟩
    by_cases hb : b = Config.codeAck <;> simp [receiveByte, withCipher, hp, announceAckRule, enterHalt, hb]
  all_goals
    refine ⟨k, n, c, ?_⟩
    simp [receiveByte, withCipher, hp, waitFor, rxDataRule, rxCsumRule, txAckRule, matchOf]

theorem byteSent_withCipher (k : Key) (n c : Halves) (s : State) : byteSent (withCipher k n c s) = byteSent s := rfl

theorem phaseAfterSend_withCipher (k : Key) (n c : Halves) (s : State) :
    phaseAfterSend (withCipher k n c s) = phaseAfterSend s := rfl

/-- Outside the cipher step, a step with another cipher state is the same step but for that state. -/
theorem step_withCipher {s t : State} (k : Key) (n c : Halves) (hne : s.pc ≠ .encrypt) (h : step s = .next t) :
    ∃ k' n' c', step (withCipher k n c s) = .next (withCipher k' n' c' t) := by
  rcases step_next_cases s t h with ⟨b, rest, hk, hr, hb⟩ | ⟨b, hk, hroom, hb, rfl⟩ | ⟨hp, -⟩
  · obtain ⟨k', n', c', hb'⟩ := receiveByte_withCipher k n c hb
    obtain ⟨u, hu, hstep⟩ := step_receiving (withCipher k n c s) b rest hk hr
    obtain rfl : withCipher k' n' c' t = u := Option.some.inj (hb'.symm.trans hu)
    exact ⟨k', n', c', hstep⟩
  · obtain ⟨b', hb', hstep⟩ := step_sending (withCipher k n c s) hk
    obtain rfl : b = b' := Option.some.inj (hb.symm.trans hb')
    exact ⟨k, n, c, hstep.trans (sendThen_room _ _ _ hroom)⟩
  · exact absurd hp hne

/-- Settles O52: `step_withCipher`, whose next state differs from `t` in `K`, `N` and `C` alone. -/
theorem cipherStateShowsOnlyThroughEncryption : Obligations.CipherStateShowsOnlyThroughEncryption := by
  intro s t k n c hne h
  obtain ⟨k', n', c', hstep⟩ := step_withCipher k n c hne h
  exact ⟨withCipher k' n' c' t, hstep, rfl, rfl, rfl, rfl, rfl, rfl, rfl⟩

end Sys2Proof.Proofs
end

section
/-! SUPPORT. Proofs of the statements about memory (20_memory.md): a word and its bytes on the link, and the exclusive-or
of blocks byte by byte. -/

namespace Sys2Proof.Proofs

open Sys2Proof Sys2Proof.Machine Sys2Proof.Laws

/-! ### A word and its bytes (20_memory.md R51) -/

/-- Bit `i` of lane `k` is bit `8k + i` of the word (00_scope.md R11). -/
theorem getLsbD_getLane_of_lt (w : Word) (k : Nat) {i : Nat} (hi : i < 8) :
    (getLane w k).getLsbD i = w.getLsbD (8 * k + i) := by
  rw [getLsbD_getLane, decide_eq_true hi, Bool.true_and]

/-- The lanes of an assembled word are the bytes it was assembled from. -/
theorem getLane_wordLE (b0 b1 b2 b3 : Byte) :
    getLane (wordLE b0 b1 b2 b3) 0 = b0 ∧ getLane (wordLE b0 b1 b2 b3) 1 = b1
    ∧ getLane (wordLE b0 b1 b2 b3) 2 = b2 ∧ getLane (wordLE b0 b1 b2 b3) 3 = b3 := by
  simpa only [bytesLE, List.cons.injEq, and_true] using bytesLE_wordLE b0 b1 b2 b3

/-- Each byte stands in its lane of the assembled word. -/
theorem getLsbD_wordLE (b0 b1 b2 b3 : Byte) {i : Nat} (hi : i < 8) :
    (wordLE b0 b1 b2 b3).getLsbD i = b0.getLsbD i ∧ (wordLE b0 b1 b2 b3).getLsbD (8 + i) = b1.getLsbD i
    ∧ (wordLE b0 b1 b2 b3).getLsbD (16 + i) = b2.getLsbD i ∧ (wordLE b0 b1 b2 b3).getLsbD (24 + i) = b3.getLsbD i := by
  have hbit {k : Nat} {b : Byte} (h : getLane (wordLE b0 b1 b2 b3) k = b) :
      (wordLE b0 b1 b2 b3).getLsbD (8 * k + i) = b.getLsbD i := by
    rw [← getLsbD_getLane_of_lt _ k hi, h]
  obtain ⟨h0, h1, h2, h3⟩ := getLane_wordLE b0 b1 b2 b3
  exact ⟨by simpa only [Nat.mul_zero, Nat.zero_add] using hbit h0, hbit h1, hbit h2, hbit h3⟩

/-- A word is assembled back from its four lanes. -/
theorem wordLE_getLane (w : Word) : wordLE (getLane w 0) (getLane w 1) (getLane w 2) (getLane w 3) = w := by
  obtain ⟨h0, h1, h2, h3⟩ := getLane_wordLE (getLane w 0) (getLane w 1) (getLane w 2) (getLane w 3)
  refine word_eq_of_lanes fun j hj => ?_
  interval_cases j <;> assumption

/-- Settles O7: the lanes bit by bit and the round trip are the lemmas above, the two other clauses are definitions. -/
theorem wordsAndBytesAgree : Obligations.WordsAndBytesAgree :=
  ⟨fun w k _ _ hi => getLsbD_getLane_of_lt w k hi, fun _ => rfl, fun b0 b1 b2 b3 _ hi => getLsbD_wordLE b0 b1 b2 b3 hi,
    wordLE_getLane, fun _ _ => rfl⟩

/-! ### Exclusive-or in link order (20_memory.md R54) -/

theorem getLane_xor (v w : Word) (k : Nat) : getLane (v ^^^ w) k = getLane v k ^^^ getLane w k := by
  rw [getLane, BitVec.ushiftRight_xor_distrib, BitVec.setWidth_xor]
  rfl

theorem bytesLE_xor (v w : Word) :
    bytesLE (v ^^^ w) = List.zipWith (fun a b => a ^^^ b) (bytesLE v) (bytesLE w) := by
  simp only [bytesLE, getLane_xor, List.zipWith_cons_cons, List.zipWith_nil_left]

/-- Every word crosses as four bytes, so two lists of words stay aligned byte by byte. -/
theorem bytesLEs_zipWith_xor (vs ws : List Word) :
    bytesLEs (List.zipWith (fun v w => v ^^^ w) vs ws)
      = List.zipWith (fun a b => a ^^^ b) (bytesLEs vs) (bytesLEs ws) := by
  induction vs generalizing ws with
  | nil => rfl
  | cons v vs ih =>
    cases ws with
    | nil => exact List.zipWith_nil_right.symm
    | cons w ws =>
      have hlen : (bytesLE v).length = (bytesLE w).length := rfl
      rw [List.zipWith_cons_cons, bytesLEs, bytesLEs, bytesLEs, ih, bytesLE_xor, List.zipWith_append hlen]

theorem bytesLEs_xorBlocks (Z P : Block) :
    bytesLEs (xorBlocks Z P).toList = List.zipWith (fun a b => a ^^^ b) (bytesLEs Z.toList) (bytesLEs P.toList) := by
  rw [xorBlocks, Vector.toList_zipWith, bytesLEs_zipWith_xor]

/-- Settles O19: the ciphertext is the exclusive-or of the keystream block and the plaintext (41_cipher_core.md R131). -/
theorem ciphertextBytesAreXorOfKeystreamBytes : Obligations.CiphertextBytesAreXorOfKeystreamBytes :=
  fun sigma K N C P => bytesLEs_xorBlocks (keystream (build sigma K N C)) P

end Sys2Proof.Proofs
end

section
/-! SUPPORT. Proofs of the statements about the encoding (30_encoding.md): the decoder and the encoder at both grains, where
an instruction runs and where it is refused, and the transcripts of whole transactions. -/

namespace Sys2Proof.Proofs

open Sys2Proof Sys2Proof.Machine Sys2Proof.Laws

/-! ### One byte event (30_encoding.md R91, R98) -/

/-- The byte events of the device's own are the well-formed instructions of the phases that consume nothing. -/
theorem ownInstr_eq_some_iff (ph : Phase) (m : Bool) (i : Instr) :
    ownInstr ph m = some i ↔ ph.kind ≠ .rx ∧ wellFormed ph m i = true := by
  cases ph
  case rxReply p => cases m <;> cases i <;> simp [ownInstr, Phase.kind, wellFormed]
  all_goals cases i <;> simp [ownInstr, Phase.kind, wellFormed]

/-- A row of the decode table that accepts one code. -/
theorem ite_ok_error_eq_ok_iff {c : Prop} [Decidable c] {i j : Instr} {e : DecodeError} :
    (if c then Except.ok j else Except.error e) = Except.ok i ↔ c ∧ j = i := by
  split_ifs with h <;> simp [h]

/-- A row of the decode table that reads a reply. -/
theorem decodeReply_eq_ok_iff {b : Byte} {i : Instr} :
    (if b = Config.codeAck then Except.ok Instr.ack else if b = Config.codeNack then Except.ok Instr.nack
      else Except.error (DecodeError.notAReply b)) = Except.ok i
    ↔ (b = Config.codeAck ∧ .ack = i) ∨ (b = Config.codeNack ∧ .nack = i) := by
  by_cases h : b = Config.codeAck
  · simp [h, show Config.codeAck ≠ Config.codeNack by decide]
  · rw [if_neg h, ite_ok_error_eq_ok_iff]
    simp [h]

/-- The decode table accepts a byte as an instruction exactly where the instruction is well formed and the byte carries
it. -/
theorem decodeByte_eq_ok_iff {ph : Phase} (m : Bool) (b : Byte) (i : Instr) (hk : ph.kind = .rx) :
    decodeByte ph b = .ok i ↔ wellFormed ph m i = true ∧ wireByte i = some b := by
  cases ph <;> simp only [Phase.kind, reduceCtorEq] at hk
  case waitKey | waitNonce | waitEnc =>
    rw [decodeByte, ite_ok_error_eq_ok_iff]
    cases i <;> simp [wellFormed, wireByte, eq_comm]
  case announceAck | txAck =>
    rw [decodeByte, decodeReply_eq_ok_iff]
    cases i <;> simp [wellFormed, wireByte, eq_comm]
  all_goals cases i <;> simp [decodeByte, wellFormed, wireByte, eq_comm]

theorem encode_receiving {ph : Phase} (i : Instr) (hk : ph.kind = .rx) : encode ph i = (wireByte i).toList := by
  rw [encode, hk]

theorem encode_not_receiving {ph : Phase} (i : Instr) (hk : ph.kind ≠ .rx) : encode ph i = [] :=
  (AtMostOneByte.statement_of i ph).2 hk

/-- What a phase that receives selects is received as one byte (30_encoding.md R91): the two instructions without a wire byte
are the device's own. -/
theorem exists_wireByte {ph : Phase} {m : Bool} {i : Instr} (hk : ph.kind = .rx) (h : wellFormed ph m i = true) :
    ∃ b, wireByte i = some b := by
  cases i
  case sendCipher | packetTx => cases ph <;> simp [Phase.kind, wellFormed] at hk h
  all_goals exact ⟨_, rfl⟩

theorem decode_own {ph : Phase} {m : Bool} {i : Instr} (h : ownInstr ph m = some i) (bytes : List Byte) :
    decode ph m bytes = .ok (i, bytes) := by
  simp [decode, h]

theorem decode_receiving_nothing {ph : Phase} (m : Bool) (hk : ph.kind = .rx) : decode ph m [] = .error .incomplete := by
  simp [decode, ownInstr_receiving m hk, hk]

theorem decode_halted (m : Bool) (bytes : List Byte) : decode .halt m bytes = .error .halted := rfl

/-- Every phase that sends or computes has an event of its own. -/
theorem exists_ownInstr {ph : Phase} (m : Bool) (hk : ph.kind ≠ .rx) (hh : ph ≠ .halt) : ∃ i, ownInstr ph m = some i := by
  cases ph <;> simp_all [Phase.kind, ownInstr]

/-- The decoder answers an instruction exactly where it is well formed and its words stand at the head of the bytes. -/
theorem decode_eq_ok_iff (ph : Phase) (m : Bool) (bytes rest : List Byte) (i : Instr) :
    decode ph m bytes = .ok (i, rest) ↔ wellFormed ph m i = true ∧ bytes = encode ph i ++ rest := by
  by_cases hk : ph.kind = .rx
  · rw [encode_receiving i hk]
    cases bytes with
    | nil =>
      rw [decode_receiving_nothing m hk]
      refine iff_of_false (by simp) fun ⟨hw, h⟩ => ?_
      obtain ⟨b, hb⟩ := exists_wireByte hk hw
      simp [hb] at h
    | cons b bs =>
      have hmap : decode ph m (b :: bs) = .ok (i, rest) ↔ decodeByte ph b = .ok i ∧ bs = rest := by
        rw [decode_receiving m b bs hk]
        cases decodeByte ph b <;> simp [Except.map]
      rw [hmap, decodeByte_eq_ok_iff m b i hk, and_assoc, and_congr_right_iff]
      intro hw
      obtain ⟨c, hc⟩ := exists_wireByte hk hw
      simp [hc, eq_comm]
  · rw [encode_not_receiving i hk, List.nil_append]
    by_cases hh : ph = .halt
    · subst hh
      cases i <;> simp [decode_halted, wellFormed]
    · obtain ⟨j, hj⟩ := exists_ownInstr m hk hh
      have hij : j = i ↔ wellFormed ph m i = true := by
        simpa [hj, hk] using ownInstr_eq_some_iff ph m i
      simp [decode_own hj, hij]

/-- Settles O2: a well-formed instruction is read back from its words, `decode_eq_ok_iff` from right to left. -/
theorem decodeOfEncodeIsIdentity : Obligations.DecodeOfEncodeIsIdentity :=
  fun ph m i rest hw => (decode_eq_ok_iff ph m _ rest i).mpr ⟨hw, rfl⟩

/-- Settles O3: `decode_eq_ok_iff` from left to right. -/
theorem decodeAcceptsOnlyEncodings : Obligations.DecodeAcceptsOnlyEncodings :=
  fun ph m bytes rest i => (decode_eq_ok_iff ph m bytes rest i).mp

/-- The bytes that no row of the decode table accepts, in a phase that receives. -/
theorem decodeByte_eq_error_iff {ph : Phase} (b : Byte) (e : DecodeError) (hk : ph.kind = .rx) :
    decodeByte ph b = .error e ↔
      (((ph = .waitKey ∧ b ≠ 0x13) ∨ (ph = .waitNonce ∧ b ≠ 0x14) ∨ (ph = .waitEnc ∧ b ≠ 0x15)) ∧ e = .strayByte b)
      ∨ ((ph = .announceAck ∨ ∃ p, ph = .txAck p) ∧ b ≠ 0xB1 ∧ b ≠ 0xC2 ∧ e = .notAReply b) := by
  cases ph <;> simp only [Phase.kind, reduceCtorEq] at hk
  case waitKey | waitNonce | waitEnc =>
    rw [decodeByte]
    split_ifs with h <;> simp_all [Config.codeSendKey, Config.codeSendNonce, Config.codeEncrypt, eq_comm]
  case announceAck | txAck =>
    rw [decodeByte]
    split_ifs with h h' <;> simp_all [Config.codeAck, Config.codeNack, eq_comm]
  all_goals simp [decodeByte]

/-- Settles O4: a phase that receives rejects what the decode table rejects, the halt rejects everything, and the other
phases have an event of their own, which needs no byte. -/
theorem decodeRejectsExactlyByName : Obligations.DecodeRejectsExactlyByName := by
  intro ph m
  by_cases hk : ph.kind = .rx
  · have hh : ph ≠ .halt := by rintro rfl; cases hk
    refine ⟨iff_of_true (decode_receiving_nothing m hk) hk, fun b rest e => ?_⟩
    have hmap : decode ph m (b :: rest) = .error e ↔ decodeByte ph b = .error e := by
      rw [decode_receiving m b rest hk]
      cases decodeByte ph b <;> simp [Except.map]
    rw [hmap, decodeByte_eq_error_iff b e hk]
    simp [hh]
  · have hne : ∀ ph' : Phase, ph'.kind = .rx → ph ≠ ph' := by rintro _ hk' rfl; exact hk hk'
    have hreply : ¬(ph = .announceAck ∨ ∃ p, ph = .txAck p) := by
      rintro (h | ⟨p, h⟩) <;> exact hne _ rfl h
    simp only [hk, hne .waitKey rfl, hne .waitNonce rfl, hne .waitEnc rfl, hreply, false_and, false_or, or_false]
    by_cases hh : ph = .halt
    · subst hh
      simp [decode_halted, eq_comm]
    · obtain ⟨i, hi⟩ := exists_ownInstr m hk hh
      simp [decode_own hi, hh]

/-! ### Whole frames (30_encoding.md R80 to R84) -/

theorem bytesLEs_cons (w : Word) (ws : List Word) (rest : List Byte) :
    bytesLEs (w :: ws) ++ rest = getLane w 0 :: getLane w 1 :: getLane w 2 :: getLane w 3 :: (bytesLEs ws ++ rest) := rfl

theorem takeWords_bytesLEs (ws : List Word) (rest : List Byte) :
    takeWords ws.length (bytesLEs ws ++ rest) = some (ws, rest) := by
  induction ws with
  | nil => rfl
  | cons w ws ih => simp [bytesLEs_cons, takeWords, ih, wordLE_getLane]

theorem takeWords_toList {k : Nat} (v : Vector Word k) (rest : List Byte) :
    takeWords k (bytesLEs v.toList ++ rest) = some (v.toList, rest) := by
  simpa using takeWords_bytesLEs v.toList rest

/-- What is taken as words is exactly the bytes of those words. -/
theorem takeWords_eq_some {k : Nat} {bytes rest : List Byte} {ws : List Word}
    (h : takeWords k bytes = some (ws, rest)) : ws.length = k ∧ bytes = bytesLEs ws ++ rest := by
  induction k generalizing bytes ws with
  | zero => cases h; exact ⟨rfl, rfl⟩
  | succ k ih =>
    match bytes with
    | b0 :: b1 :: b2 :: b3 :: bytes =>
      rw [takeWords] at h
      split at h
      · next vs rest' hvs =>
        cases h
        obtain ⟨hlen, hbytes⟩ := ih hvs
        exact ⟨congrArg (· + 1) hlen, by rw [bytesLEs, bytesLE_wordLE, hbytes]; rfl⟩
      · cases h
    | [] | [_] | [_, _] | [_, _, _] => cases h

theorem vector_eq_two {α : Type} (v : Vector α 2) : v = #v[v[0], v[1]] := by
  refine Vector.ext fun i hi => ?_
  interval_cases i <;> rfl

theorem vector_eq_four {α : Type} (v : Vector α 4) : v = #v[v[0], v[1], v[2], v[3]] := by
  refine Vector.ext fun i hi => ?_
  interval_cases i <;> rfl

theorem vector_eq_eight {α : Type} (v : Vector α 8) : v = #v[v[0], v[1], v[2], v[3], v[4], v[5], v[6], v[7]] := by
  refine Vector.ext fun i hi => ?_
  interval_cases i <;> rfl

/-- Settles O5: a code is read as it is, and in the other formats the words are taken back from their bytes. -/
theorem frameDecodeOfEncodeIsIdentity : Obligations.FrameDecodeOfEncodeIsIdentity := by
  intro f rest hf
  cases f with
  | ctrl code => exact if_pos hf
  | keyf key =>
    rw [Frame.format, decodeFrame, encodeFrame, takeWords_toList, vector_eq_eight key]
    rfl
  | noncef nonce =>
    rw [Frame.format, decodeFrame, encodeFrame, takeWords_toList, vector_eq_two nonce]
    rfl
  | pkt w c =>
    rw [Frame.format, decodeFrame, encodeFrame, List.append_assoc, takeWords_toList, vector_eq_four w]
    rfl

/-- A frame that is read is of its format, readable, and was read from its own bytes. -/
theorem decodeFrame_eq_ok {fmt : Format} {f : Frame} {bytes rest : List Byte} (h : decodeFrame fmt bytes = .ok (f, rest)) :
    f.format = fmt ∧ f.readable = true ∧ bytes = encodeFrame f ++ rest := by
  unfold decodeFrame at h
  split at h
  · split at h
    · cases h
    · split at h
      · next hc => cases h; exact ⟨rfl, hc, rfl⟩
      · cases h
  · split at h
    · next hw => cases h; exact ⟨rfl, rfl, (takeWords_eq_some hw).2⟩
    · cases h
  · split at h
    · next hw => cases h; exact ⟨rfl, rfl, (takeWords_eq_some hw).2⟩
    · cases h
  · split at h
    · next hw => cases h; exact ⟨rfl, rfl, by rw [(takeWords_eq_some hw).2]; simp [encodeFrame]⟩
    · cases h

theorem length_encodeFrame (f : Frame) : (encodeFrame f).length = f.format.length := by
  cases f <;> simp [encodeFrame, length_bytesLEs, Frame.format, Format.length]

/-- Settles O6. -/
theorem frameDecodeAcceptsOnlyEncodings : Obligations.FrameDecodeAcceptsOnlyEncodings := by
  intro fmt f bytes rest h
  obtain ⟨rfl, hr, rfl⟩ := decodeFrame_eq_ok h
  refine ⟨rfl, hr, rfl, length_encodeFrame f, fun hne => ?_, fun hpkt => ?_⟩
  · cases f with
    | pkt => exact absurd rfl hne
    | _ => exact hr
  · cases f with
    | pkt w c =>
      have hlen : (bytesLEs w.toList).length = 16 := by simp [length_bytesLEs]
      rw [wellFormed_pkt, encodeFrame]
      simp [hlen]
    | _ => cases hpkt

/-! ### Where a control code runs, and where an instruction is refused (30_encoding.md R91, R94, R98) -/

/-- In a phase that consumes nothing a received code is refused. -/
theorem receiveCode_refused {s : State} (mn : String) (code : Byte) (hk : s.pc.kind ≠ .rx) :
    receiveCode mn code s = .refused (.notSelected mn) := by
  have hnone : receiveByte code s = none :=
    Option.not_isSome_iff_eq_none.mp fun h => hk ((receiveByte_isSome code s).mp h)
  rw [receiveCode, hnone]

/-- In a phase that receives, a received code is the step on its byte. -/
theorem receiveCode_eq_step {s : State} (mn : String) (code : Byte) (hk : s.pc.kind = .rx) :
    receiveCode mn code s = step { s with rx := code :: s.rx } ∧ ∃ t, receiveCode mn code s = .next t := by
  obtain ⟨t, ht, hstep⟩ := step_receiving { s with rx := code :: s.rx } code s.rx hk rfl
  have hnext : receiveCode mn code s = .next t := (receiveCode_next mn code s t).mpr ht
  exact ⟨hnext.trans hstep.symm, t, hnext⟩

/-- Outside the cipher step `ENCRYPT` is a received code. -/
theorem exec_encrypt_received {s : State} (h : s.pc ≠ .encrypt) :
    exec .encrypt s = receiveCode "ENCRYPT" Config.codeEncrypt s := by
  cases hp : s.pc <;> simp_all [exec, execEncrypt]

/-- Where the device neither sends `ACK` nor replies to a packet, `ACK` is a received code. -/
theorem exec_ack_received {s : State} (h : ownInstr s.pc s.matchFlag ≠ some .ack) (hr : ∀ p, s.pc ≠ .rxReply p) :
    exec .ack s = receiveCode "ACK" Config.codeAck s := by
  cases hp : s.pc <;> simp_all [exec, execAck, ownInstr]

/-- Where the device does not reply to a packet, `NACK` is a received code. -/
theorem exec_nack_received {s : State} (hr : ∀ p, s.pc ≠ .rxReply p) :
    exec .nack s = receiveCode "NACK" Config.codeNack s := by
  cases hp : s.pc <;> simp_all [exec, execNack]

/-- Settles O27: in a phase that receives each of the five is a received code, and that is the step on its byte. -/
theorem controlCodesRunInEveryReceivingPhase : Obligations.ControlCodesRunInEveryReceivingPhase := by
  intro s i code hi hk
  have hne : ∀ ph : Phase, ph.kind ≠ .rx → s.pc ≠ ph := fun ph hk' hp => hk' (hp ▸ hk)
  have hr : ∀ p, s.pc ≠ .rxReply p := fun p => hne _ (by simp [Phase.kind])
  have hcode : ∃ mn, exec i s = receiveCode mn code s := by
    simp only [List.mem_cons, List.not_mem_nil, or_false, Prod.mk.injEq] at hi
    rcases hi with ⟨rfl, rfl⟩ | ⟨rfl, rfl⟩ | ⟨rfl, rfl⟩ | ⟨rfl, rfl⟩ | ⟨rfl, rfl⟩
    · exact ⟨_, rfl⟩
    · exact ⟨_, rfl⟩
    · exact ⟨_, exec_encrypt_received (hne _ (by simp [Phase.kind]))⟩
    · exact ⟨_, exec_ack_received (by simp [ownInstr_receiving _ hk]) hr⟩
    · exact ⟨_, exec_nack_received hr⟩
  obtain ⟨mn, hmn⟩ := hcode
  rw [hmn]
  exact receiveCode_eq_step mn code hk

theorem exec_keyFrame_refused {s : State} (b : Byte) (h : ∀ n, s.pc ≠ .keyData n) :
    exec (.keyFrame b) s = .refused (.notSelected "KEY_FRAME") := by
  cases hp : s.pc <;> simp_all [exec, execKeyFrame]

theorem exec_nonceFrame_refused {s : State} (b : Byte) (h : ∀ n, s.pc ≠ .nonceData n) :
    exec (.nonceFrame b) s = .refused (.notSelected "NONCE_FRAME") := by
  cases hp : s.pc <;> simp_all [exec, execNonceFrame]

theorem exec_packetRx_refused {s : State} (b : Byte) (hc : ∀ p, s.pc ≠ .rxCsum p) (hd : ∀ p n, s.pc ≠ .rxData p n) :
    exec (.packetRx b) s = .refused (.notSelected "PACKET_RX") := by
  cases hp : s.pc <;> simp_all [exec, execPacketRx]

theorem exec_packetTx_refused {s : State} (hc : ∀ p, s.pc ≠ .txCsum p) (hd : ∀ p n, s.pc ≠ .txData p n) :
    exec .packetTx s = .refused (.notSelected "PACKET_TX") := by
  cases hp : s.pc <;> simp_all [exec, execPacketTx]

theorem exec_sendCipher_refused {s : State} (h : s.pc ≠ .announce) :
    exec .sendCipher s = .refused (.notSelected "SEND_CIPHER") := by
  cases hp : s.pc <;> simp_all [exec, execSendCipher]

/-- `ACK` is refused where nothing is received and the device does not send it: as a received code, or as the reply that
`MATCH` does not choose. -/
theorem exec_ack_refused {s : State} (hk : s.pc.kind ≠ .rx) (hw : wellFormed s.pc s.matchFlag .ack = false) :
    exec .ack s = .refused (.notSelected "ACK") := by
  by_cases hr : ∃ p, s.pc = .rxReply p
  · obtain ⟨p, hp⟩ := hr
    rw [hp] at hw
    simp [exec, execAck, hp, show s.matchFlag = false from hw]
  · rw [exec_ack_received (by simp [ownInstr_eq_some_iff, hw]) (not_exists.mp hr), receiveCode_refused _ _ hk]

/-- `NACK` is refused where nothing is received and `MATCH` does not choose it as the reply. -/
theorem exec_nack_refused {s : State} (hk : s.pc.kind ≠ .rx) (hw : wellFormed s.pc s.matchFlag .nack = false) :
    exec .nack s = .refused (.notSelected "NACK") := by
  by_cases hr : ∃ p, s.pc = .rxReply p
  · obtain ⟨p, hp⟩ := hr
    rw [hp] at hw
    have hm : s.matchFlag = true := by simpa [wellFormed] using hw
    simp [exec, execNack, hp, hm]
  · rw [exec_nack_received (not_exists.mp hr), receiveCode_refused _ _ hk]

/-- Settles O39, instruction by instruction. -/
theorem unselectedInstructionsAreRefused : Obligations.UnselectedInstructionsAreRefused := by
  intro s b
  refine ⟨exec_keyFrame_refused b, exec_nonceFrame_refused b, exec_packetRx_refused b, exec_packetTx_refused,
    exec_sendCipher_refused, fun hk => ⟨receiveCode_refused _ _ hk, receiveCode_refused _ _ hk, fun hne => ?_,
    exec_ack_refused hk, exec_nack_refused hk⟩⟩
  rw [exec_encrypt_received hne, receiveCode_refused _ _ hk]

/-! ### The bytes of a transcript (30_encoding.md R102, R105) -/

@[simp] theorem hostBytes_append (l l' : Transcript) : hostBytes (l ++ l') = hostBytes l ++ hostBytes l' := by
  induction l with
  | nil => rfl
  | cons x l ih => cases x <;> simp [hostBytes, ih]

@[simp] theorem hostBytes_fromHost (bs : List Byte) : hostBytes (fromHost bs) = bs := by
  induction bs with
  | nil => rfl
  | cons b bs ih => exact congrArg (b :: ·) ih

@[simp] theorem hostBytes_toHost (bs : List Byte) : hostBytes (toHost bs) = [] := by
  induction bs with
  | nil => rfl
  | cons b bs ih => exact ih

@[simp] theorem deviceBytes_append (l l' : Transcript) : deviceBytes (l ++ l') = deviceBytes l ++ deviceBytes l' := by
  induction l with
  | nil => rfl
  | cons x l ih => cases x <;> simp [deviceBytes, ih]

@[simp] theorem deviceBytes_fromHost (bs : List Byte) : deviceBytes (fromHost bs) = [] := by
  induction bs with
  | nil => rfl
  | cons b bs ih => exact ih

@[simp] theorem deviceBytes_toHost (bs : List Byte) : deviceBytes (toHost bs) = bs := by
  induction bs with
  | nil => rfl
  | cons b bs ih => exact congrArg (b :: ·) ih

@[simp] theorem length_fromHost (bs : List Byte) : (fromHost bs).length = bs.length := List.length_map _

@[simp] theorem length_toHost (bs : List Byte) : (toHost bs).length = bs.length := List.length_map _

@[simp] theorem length_packetBytes (F : Block) (p : Fin 4) : (packetBytes F p).length = 17 := rfl

/-- Settles O60: every transaction is a row of frames of known lengths. -/
theorem transactionLengths : Obligations.TransactionLengths := by
  intro key nonce pt ct
  refine ⟨?_, ?_, ?_, ?_, ?_, ?_, ?_, ?_, ?_⟩
  all_goals simp [provisionKey, provisionNonce, encryptCycle, putBlock, getBlock, putPacket, getPacket, length_bytesLEs]

/-! ### Following a transcript (30_encoding.md R105) -/

/-- What a transcript does to the device without its queues: each label is the effect of the byte received, the byte the
phase sends, or the cipher step; none where the device does something else. `replay_of_follow` puts the queues back. -/
def follow : Transcript → State → Option State
  | [], s => some s
  | .rx b :: l, s => (receiveByte b s).bind (follow l)
  | .tx b :: l, s => if byteSent s = some b then follow l { s with pc := phaseAfterSend s } else none
  | .tau :: l, s => if s.pc = .encrypt then follow l (encryptRule s) else none

theorem follow_rx_cons {b : Byte} {l : Transcript} {s t : State} (h : receiveByte b s = some t) :
    follow (.rx b :: l) s = follow l t := by
  rw [follow, h, Option.bind_some]

theorem follow_tx_cons {b : Byte} {l : Transcript} {s : State} (h : byteSent s = some b) :
    follow (.tx b :: l) s = follow l { s with pc := phaseAfterSend s } :=
  if_pos h

theorem follow_tx_cons_eq_some {b : Byte} {l : Transcript} {s t : State} (h : follow (.tx b :: l) s = some t) :
    byteSent s = some b ∧ follow l { s with pc := phaseAfterSend s } = some t := by
  simpa [follow] using h

theorem follow_tau_cons_eq_some {l : Transcript} {s t : State} (h : follow (.tau :: l) s = some t) :
    s.pc = .encrypt ∧ follow l (encryptRule s) = some t := by
  simpa [follow] using h

theorem follow_append (l l' : Transcript) : ∀ s : State, follow (l ++ l') s = (follow l s).bind (follow l') := by
  induction l with
  | nil => intro s; rfl
  | cons x l ih =>
    intro s
    cases x with
    | rx b => cases h : receiveByte b s <;> simp [follow, h, ih]
    | tx b | tau =>
      simp only [List.cons_append, follow, ih]
      split <;> rfl

theorem follow_trans {l l' : Transcript} {s t u : State} (h : follow l s = some t) (h' : follow l' t = some u) :
    follow (l ++ l') s = some u := by
  rw [follow_append, h, Option.bind_some, h']

theorem follow_received {b : Byte} {s t : State} (h : receiveByte b s = some t) : follow (fromHost [b]) s = some t :=
  follow_rx_cons h

theorem follow_sent {b : Byte} {s : State} (h : byteSent s = some b) :
    follow (toHost [b]) s = some { s with pc := phaseAfterSend s } :=
  follow_tx_cons h

/-- The state with other queues. -/
def withQueues (rx tx : List Byte) (s : State) : State := { s with rx := rx, tx := tx }

/-- The effect of a received byte is on the device alone. -/
theorem receiveByte_withQueues {b : Byte} {s t : State} (rx tx : List Byte) (h : receiveByte b s = some t) :
    receiveByte b (withQueues rx tx s) = some (withQueues rx tx t) := by
  cases hp : s.pc <;> simp only [receiveByte, hp, Option.some.injEq, reduceCtorEq] at h <;> subst h
  case announceAck =>
    by_cases hb : b = Config.codeAck <;> simp [receiveByte, withQueues, hp, announceAckRule, enterHalt, hb]
  all_goals
    simp [receiveByte, withQueues, hp, waitFor, keyDataRule, nonceDataRule, rxDataRule, rxCsumRule, txAckRule, matchOf]

/-- Only a phase that sends has a byte to send. -/
theorem kind_of_byteSent {s : State} {b : Byte} (h : byteSent s = some b) : s.pc.kind = .tx := by
  cases hp : s.pc <;> simp_all [byteSent, Phase.kind]

theorem txRoom_of_unbounded {s : State} (h : s.cfg.txDepth = none) : s.txRoom = true := by
  rw [txRoom_iff, h, fits_none]

theorem replay_cons {x : Label} {l : Transcript} {s t : State} (hstep : step s = .next t) (hlabel : label s = some x) :
    replay (x :: l) s = replay l t := by
  simp [replay, hstep, hlabel]

/-- The effect of a transcript is what the machine does along it, with the host's bytes at the head of `RX` and room in
`TX`: it consumes the former and appends its own bytes to the latter. -/
theorem replay_withQueues (rest : List Byte) (l : Transcript) : ∀ (s t : State) (tx : List Byte),
    s.cfg.txDepth = none → follow l s = some t →
    replay l (withQueues (hostBytes l ++ rest) tx s) = some (withQueues rest (tx ++ deviceBytes l) t) := by
  induction l with
  | nil =>
    intro s t tx _ h
    cases h
    simp [replay, hostBytes, deviceBytes]
  | cons x l ih =>
    intro s t tx hroom h
    cases x with
    | rx b =>
      obtain ⟨u, hu, hl⟩ := Option.bind_eq_some_iff.mp h
      have hk : s.pc.kind = .rx := receiveByte_kind hu
      obtain ⟨v, hv, hstep⟩ := step_receiving (withQueues (b :: (hostBytes l ++ rest)) tx s) b _ hk rfl
      obtain rfl : withQueues (hostBytes l ++ rest) tx u = v :=
        Option.some.inj ((receiveByte_withQueues _ _ hu).symm.trans hv)
      have hcfg : u.cfg = s.cfg := (receiveByte_keeps b s u hu).1
      exact (replay_cons hstep (label_receiving hk rfl)).trans (ih u t tx (hcfg ▸ hroom) hl)
    | tx b =>
      obtain ⟨hb, hl⟩ := follow_tx_cons_eq_some h
      have hk : s.pc.kind = .tx := kind_of_byteSent hb
      obtain ⟨c, hc, hstep⟩ := step_sending (withQueues (hostBytes l ++ rest) tx s) hk
      obtain rfl : b = c := Option.some.inj (hb.symm.trans hc)
      have hfree : (withQueues (hostBytes l ++ rest) tx s).txRoom = true := txRoom_of_unbounded hroom
      rw [sendThen_room _ _ _ hfree] at hstep
      rw [deviceBytes, List.append_cons]
      exact (replay_cons hstep (label_sending hk hfree hb)).trans (ih { s with pc := phaseAfterSend s } t (tx ++ [b]) hroom hl)
    | tau =>
      obtain ⟨hp, hl⟩ := follow_tau_cons_eq_some h
      exact (replay_cons (step_encrypting (withQueues _ tx s) hp) (label_encrypting hp)).trans
        (ih (encryptRule s) t tx hroom hl)

/-- The effect of a transcript, for a state that has the host's bytes in `RX`. -/
theorem replay_of_follow {l : Transcript} {s t : State} {rest : List Byte} (hroom : s.cfg.txDepth = none)
    (hrx : s.rx = hostBytes l ++ rest) (h : follow l s = some t) :
    replay l s = some { t with rx := rest, tx := s.tx ++ deviceBytes l } := by
  have hs : s = withQueues (hostBytes l ++ rest) s.tx s := by rw [← hrx]; rfl
  rw [hs]
  exact replay_withQueues rest l s t s.tx hroom h

/-! ### The bytes of words and of blocks (20_memory.md R51) -/

/-- Byte `a` of a list of words on the link is its lane. -/
theorem getElem_bytesLEs (ws : List Word) : ∀ (a : Nat) (h : a < 4 * ws.length),
    (bytesLEs ws)[a]'(by rwa [length_bytesLEs]) = getLane (ws[a / 4]'(by omega)) (a % 4) := by
  induction ws with
  | nil => intro a h; simp at h
  | cons w ws ih =>
    intro a h
    match a with
    | 0 | 1 | 2 | 3 => rfl
    | a + 4 =>
      have hbyte := ih a (by simp only [List.length_cons] at h; omega)
      simpa [bytesLEs, bytesLE] using hbyte

/-- Byte `j` of a file on the link is byte `j` of the file. -/
theorem getElem_bytesLEs_toList {k : Nat} (F : Vector Word k) (j : Fin (4 * k)) :
    (bytesLEs F.toList)[j.val]'(by simp [length_bytesLEs]) = fileByte F j := by
  rw [getElem_bytesLEs _ _ (by simp)]
  rfl

theorem fileByte_setFileByte {k : Nat} (F : Vector Word k) (n j : Fin (4 * k)) (b : Byte) :
    fileByte (setFileByte F n b) j = if j = n then b else fileByte F j := by
  have hiff : j = n ↔ n.val / 4 = j.val / 4 ∧ j.val % 4 = n.val % 4 := by rw [Fin.ext_iff]; omega
  simp only [fileByte, setFileByte, Vector.getElem_set]
  by_cases hw : n.val / 4 = j.val / 4
  · simp [hw, hiff, getLane_setLane _ _ (Nat.mod_lt _ (by decide : 4 > 0))]
  · simp [hw, hiff]

/-- A file is its bytes. -/
theorem file_eq_of_bytes {k : Nat} {F G : Vector Word k} (h : ∀ j, fileByte F j = fileByte G j) : F = G := by
  refine Vector.ext fun i hi => word_eq_of_lanes fun j hj => ?_
  have hbyte := h ⟨4 * i + j, by omega⟩
  simpa [fileByte, show (4 * i + j) / 4 = i by omega, show (4 * i + j) % 4 = j by omega] using hbyte

/-- The sixteen payload bytes of packet `p` of a block. -/
def payload (F : Block) (p : Fin 4) : List Byte :=
  bytesLEs [F[4 * p.val], F[4 * p.val + 1], F[4 * p.val + 2], F[4 * p.val + 3]]

theorem packetBytes_eq (F : Block) (p : Fin 4) : packetBytes F p = payload F p ++ [csum (payload F p)] := rfl

theorem length_payload (F : Block) (p : Fin 4) : (payload F p).length = 16 := rfl

/-- A block on the link is the payloads of its four packets. -/
theorem bytesLEs_block (F : Block) :
    bytesLEs F.toList = payload F 0 ++ payload F 1 ++ payload F 2 ++ payload F 3 := by
  have hF : F = #v[F[0], F[1], F[2], F[3], F[4], F[5], F[6], F[7], F[8], F[9], F[10], F[11], F[12], F[13], F[14], F[15]] := by
    refine Vector.ext fun i hi => ?_
    interval_cases i <;> rfl
  rw [hF]
  rfl

theorem writeBytes_append (bs bs' : List Byte) : ∀ (m : Memory) (a : Nat),
    m.writeBytes a (bs ++ bs') = (m.writeBytes a bs).writeBytes (a + bs.length) bs' := by
  induction bs with
  | nil => intro m a; rfl
  | cons b bs ih =>
    intro m a
    simp [Memory.writeBytes, ih, Nat.add_assoc, Nat.add_comm 1]

/-- Storing the payloads of the four packets in their places writes the block. -/
theorem writeBlock_eq_payloads (m : Memory) (F : Block) :
    m.writeBlock F = (((m.writeBytes (packetAddr 0 0) (payload F 0)).writeBytes (packetAddr 1 0) (payload F 1)).writeBytes
      (packetAddr 2 0) (payload F 2)).writeBytes (packetAddr 3 0) (payload F 3) := by
  simp only [Memory.writeBlock, bytesLEs_block, writeBytes_append]
  rfl

/-- A block written is read back. -/
theorem block_writeBlock (m : Memory) (F : Block) : (m.writeBlock F).block = F := by
  refine Vector.ext fun i hi => ?_
  rw [getElem_block _ hi]
  refine word_eq_of_lanes fun j hj => ?_
  rw [getLane_word _ _ hj, read_writeBlock, dif_pos (by omega), getElem_bytesLEs _ _ (by simp; omega)]
  simp [show (4 * i + j) / 4 = i by omega, show (4 * i + j) % 4 = j by omega]

/-- What the device sends of packet `p` is the payload of the block in the buffer. -/
theorem readBytes_eq_payload (m : Memory) (p : Fin 4) : m.readBytes (packetAddr p 0) 16 = payload m.block p := by
  rw [readBytes_packet]
  fin_cases p <;> rfl

/-! ### Frames received and sent byte by byte (30_encoding.md R103) -/

/-- The phase at byte `n` of a frame of `N` bytes: one of the data phases, or the phase after the last. -/
def phaseAt {N : Nat} (data : Fin N → Phase) (done : Phase) (n : Nat) : Phase :=
  if h : n < N then data ⟨n, h⟩ else done

theorem phaseAt_val {N : Nat} (data : Fin N → Phase) (done : Phase) (n : Fin N) : phaseAt data done n.val = data n :=
  dif_pos n.isLt

theorem afterKeyByte_eq_phaseAt : ∀ n, Phase.afterKeyByte n = phaseAt .keyData .keyAck2 (n.val + 1) := by decide

theorem afterNonceByte_eq_phaseAt : ∀ n, Phase.afterNonceByte n = phaseAt .nonceData .nonceAck2 (n.val + 1) := by decide

theorem afterRxByte_eq_phaseAt : ∀ p n, Phase.afterRxByte p n = phaseAt (.rxData p) (.rxCsum p) (n.val + 1) := by decide

theorem afterTxByte_eq_phaseAt : ∀ p n, Phase.afterTxByte p n = phaseAt (.txData p) (.txCsum p) (n.val + 1) := by decide

/-- A file received byte by byte, from byte `n` on, becomes the file sent, when its bytes below `n` are already those.
`st F n` is the state with the file at `F` that awaits byte `n`. -/
theorem follow_file {k : Nat} {st : Vector Word k → Nat → State}
    (hstep : ∀ F (n : Fin (4 * k)) b, receiveByte b (st F n.val) = some (st (setFileByte F n b) (n.val + 1)))
    (G : Vector Word k) (d : Nat) : ∀ (n : Nat) (F : Vector Word k), n + d = 4 * k →
    (∀ j : Fin (4 * k), j.val < n → fileByte F j = fileByte G j) →
    follow (fromHost ((bytesLEs G.toList).drop n)) (st F n) = some (st G (4 * k)) := by
  have hlen : (bytesLEs G.toList).length = 4 * k := by simp [length_bytesLEs]
  induction d with
  | zero =>
    intro n F hn hF
    obtain rfl : n = 4 * k := hn
    rw [List.drop_eq_nil_of_le (by omega), file_eq_of_bytes fun j => hF j j.isLt]
    rfl
  | succ d ih =>
    intro n F hn hF
    have hlt : n < 4 * k := by omega
    rw [List.drop_eq_getElem_cons (by omega)]
    refine (follow_rx_cons (hstep F ⟨n, hlt⟩ _)).trans (ih (n + 1) _ (by omega) fun j hj => ?_)
    rw [fileByte_setFileByte]
    split_ifs with h
    · subst h
      exact getElem_bytesLEs_toList G ⟨n, hlt⟩
    · exact hF j (by have := Fin.val_ne_of_ne h; simp only at this; omega)

theorem follow_keyFrame (key : Key) (s : State) :
    follow (fromHost (bytesLEs key.toList)) { s with pc := .keyData 0 } = some { s with key := key, pc := .keyAck2 } := by
  refine follow_file (st := fun F n => { s with key := F, pc := phaseAt .keyData .keyAck2 n }) (fun F n b => ?_) key 32 0
    s.key rfl (fun j hj => absurd hj (Nat.not_lt_zero _))
  simp [phaseAt_val .keyData .keyAck2 n, receiveByte, keyDataRule, afterKeyByte_eq_phaseAt]

theorem follow_nonceFrame (nonce : Halves) (s : State) :
    follow (fromHost (bytesLEs nonce.toList)) { s with pc := .nonceData 0 }
      = some { s with nonce := nonce, pc := .nonceAck2 } := by
  refine follow_file (st := fun F n => { s with nonce := F, pc := phaseAt .nonceData .nonceAck2 n }) (fun F n b => ?_) nonce
    8 0 s.nonce rfl (fun j hj => absurd hj (Nat.not_lt_zero _))
  simp [phaseAt_val .nonceData .nonceAck2 n, receiveByte, nonceDataRule, afterNonceByte_eq_phaseAt]

/-- Payload bytes received from offset `n` on are stored from there on. -/
theorem follow_rxData (p : Fin 4) (bs : List Byte) : ∀ (n : Nat) (s : State), n + bs.length = 16 →
    s.pc = phaseAt (.rxData p) (.rxCsum p) n →
    follow (fromHost bs) s = some { s with inBuf := s.inBuf.writeBytes (packetAddr p n) bs, pc := .rxCsum p } := by
  induction bs with
  | nil =>
    intro n s hn hp
    obtain rfl : n = 16 := hn
    replace hp : s.pc = .rxCsum p := hp
    rw [← hp]
    rfl
  | cons b bs ih =>
    intro n s hn hp
    have hlt : n < 16 := by simp at hn; omega
    rw [phaseAt, dif_pos hlt] at hp
    have hb : receiveByte b s = some (rxDataRule p ⟨n, hlt⟩ b s) := by rw [receiveByte, hp]
    refine (follow_rx_cons hb).trans ((ih (n + 1) _ (by simp at hn; omega) (afterRxByte_eq_phaseAt p ⟨n, hlt⟩)).trans ?_)
    rfl

/-- Payload bytes are sent from the buffer, from offset `n` on. -/
theorem follow_txData (p : Fin 4) (k : Nat) : ∀ (n : Nat) (s : State), n + k = 16 →
    s.pc = phaseAt (.txData p) (.txCsum p) n →
    follow (toHost (s.outBuf.readBytes (packetAddr p n) k)) s = some { s with pc := .txCsum p } := by
  induction k with
  | zero =>
    intro n s hn hp
    obtain rfl : n = 16 := hn
    replace hp : s.pc = .txCsum p := hp
    rw [← hp]
    rfl
  | succ k ih =>
    intro n s hn hp
    have hlt : n < 16 := by omega
    rw [phaseAt, dif_pos hlt] at hp
    have hb : byteSent s = some (s.outBuf.read (packetAddr p n)) := by rw [byteSent, hp]
    have hnext : phaseAfterSend s = phaseAt (.txData p) (.txCsum p) (n + 1) := by
      rw [phaseAfterSend, hp]
      exact afterTxByte_eq_phaseAt p ⟨n, hlt⟩
    exact (follow_tx_cons hb).trans (ih (n + 1) { s with pc := phaseAfterSend s } (by omega) hnext)

/-! ### Whole transactions (30_encoding.md R106) -/

theorem follow_provisionKey (key : Key) {s : State} (hp : s.pc = .waitKey) :
    follow (provisionKey key) s = some { s with key := key, pc := .waitNonce } := by
  have hcode : follow (fromHost [Config.codeSendKey]) s = some { s with pc := .keyAck1 } :=
    follow_received (by simp [receiveByte, hp, waitFor])
  exact follow_trans (follow_trans (follow_trans hcode (follow_sent rfl)) (follow_keyFrame key s)) (follow_sent rfl)

theorem follow_provisionNonce (nonce : Halves) {s : State} (hp : s.pc = .waitNonce) :
    follow (provisionNonce nonce) s = some { s with nonce := nonce, pc := .waitEnc } := by
  have hcode : follow (fromHost [Config.codeSendNonce]) s = some { s with pc := .nonceAck1 } :=
    follow_received (by simp [receiveByte, hp, waitFor])
  exact follow_trans (follow_trans (follow_trans hcode (follow_sent rfl)) (follow_nonceFrame nonce s)) (follow_sent rfl)

/-- The checksum recomputed over a payload just stored is the one that was sent with it. -/
theorem packetCsum_writeBytes (m : Memory) (F : Block) (p : Fin 4) :
    packetCsum (m.writeBytes (packetAddr p 0) (payload F p)) p = csum (payload F p) :=
  congrArg csum (readBytes_writeBytes (payload F p) m (packetAddr p 0))

/-- A packet of a block is stored and acknowledged. -/
theorem follow_putPacket (F : Block) (p : Fin 4) {s : State} (hp : s.pc = .rxData p 0) :
    follow (putPacket F p) s = some { s with
      inBuf := s.inBuf.writeBytes (packetAddr p 0) (payload F p), matchFlag := true, pc := Phase.afterRxPacket p } := by
  have hdata := follow_rxData p (payload F p) 0 s rfl hp
  have hcsum : follow (fromHost [csum (payload F p)])
      { s with inBuf := s.inBuf.writeBytes (packetAddr p 0) (payload F p), pc := .rxCsum p }
      = some { s with
          inBuf := s.inBuf.writeBytes (packetAddr p 0) (payload F p), matchFlag := true, pc := .rxReply p } :=
    follow_received (by simp [receiveByte, rxCsumRule, matchOf, packetCsum_writeBytes])
  rw [putPacket, packetBytes_eq, fromHost, List.map_append]
  exact follow_trans (follow_trans hdata hcsum) (follow_sent rfl)

/-- A packet of the block in `OUT` is sent, and its acknowledgement goes on to the next. -/
theorem follow_getPacket (p : Fin 4) {s : State} (hp : s.pc = .txData p 0) :
    follow (getPacket s.outBuf.block p) s = some { s with pc := Phase.afterTxPacket p } := by
  have hdata := follow_txData p 16 0 s rfl hp
  rw [readBytes_eq_payload] at hdata
  have hcsum : follow (toHost [csum (payload s.outBuf.block p)]) { s with pc := .txCsum p }
      = some { s with pc := .txAck p } :=
    follow_sent (by simp only [byteSent, packetCsum, readBytes_eq_payload])
  rw [getPacket, packetBytes_eq, toHost, List.map_append]
  exact follow_trans (follow_trans hdata hcsum) (follow_received rfl)

/-- A block is stored in `IN`, packet by packet. -/
theorem follow_putBlock (pt : Block) {s : State} (hp : s.pc = .waitEnc) :
    follow (putBlock pt) s = some { s with inBuf := s.inBuf.writeBlock pt, matchFlag := true, pc := .encrypt } := by
  have hcode : follow (fromHost [Config.codeEncrypt]) s = some { s with pc := .encAck } :=
    follow_received (by simp [receiveByte, hp, waitFor])
  rw [writeBlock_eq_payloads]
  exact follow_trans (follow_trans (follow_trans (follow_trans (follow_trans hcode (follow_sent rfl))
    (follow_putPacket pt 0 rfl)) (follow_putPacket pt 1 rfl)) (follow_putPacket pt 2 rfl)) (follow_putPacket pt 3 rfl)

/-- The block in `OUT` is sent, packet by packet. -/
theorem follow_getBlock {s : State} (hp : s.pc = .announce) :
    follow (getBlock s.outBuf.block) s = some { s with pc := .waitEnc } := by
  have hcode : follow (toHost [Config.codeSendCipher]) s = some { s with pc := .announceAck } := by
    rw [follow_sent (by rw [byteSent, hp]), phaseAfterSend, hp]
  exact follow_trans (follow_trans (follow_trans (follow_trans (follow_trans hcode (follow_received rfl))
    (follow_getPacket 0 rfl)) (follow_getPacket 1 rfl)) (follow_getPacket 2 rfl)) (follow_getPacket 3 rfl)

/-- The state after one clean cycle: the plaintext in `IN`, its ciphertext in `OUT`, the counter advanced
(44_session_encrypt_cycle.md R172, R188). -/
def afterCycle (pt : Block) (s : State) : State :=
  { s with
    inBuf := s.inBuf.writeBlock pt
    outBuf := s.outBuf.writeBlock (encryptBlock s.cfg.sigma s.key s.nonce s.counter pt).1
    counter := incCounter s.counter
    matchFlag := true
    pc := .waitEnc }

/-- One clean cycle (44_session_encrypt_cycle.md R165, R173): the block that comes out is the plaintext's under the counter
before the cycle. -/
theorem follow_encryptCycle (pt : Block) {s : State} (hp : s.pc = .waitEnc) :
    follow (encryptCycle pt (encryptBlock s.cfg.sigma s.key s.nonce s.counter pt).1) s = some (afterCycle pt s) := by
  have hcipher : follow [.tau] { s with inBuf := s.inBuf.writeBlock pt, matchFlag := true, pc := .encrypt }
      = some { afterCycle pt s with pc := .announce } := by
    simp [follow, encryptRule, encryptBlock, afterCycle, block_writeBlock]
  have hout := follow_getBlock (s := { afterCycle pt s with pc := .announce }) rfl
  rw [show (afterCycle pt s).outBuf.block = _ from block_writeBlock _ _] at hout
  exact follow_trans (follow_trans (follow_putBlock pt hp) hcipher) hout

/-- The cycles of a session: block `k` is encrypted under the counter plus `k` (44_session_encrypt_cycle.md R182). -/
theorem follow_cycles (pts : List Block) : ∀ s : State, s.pc = .waitEnc →
    ∃ t, follow (cycles s.cfg.sigma s.key s.nonce s.counter pts) s = some t
      ∧ t.pc = .waitEnc ∧ t.key = s.key ∧ t.nonce = s.nonce
      ∧ join64 t.counter = join64 s.counter + BitVec.ofNat 64 pts.length := by
  induction pts with
  | nil => intro s hp; exact ⟨s, rfl, hp, rfl, rfl, (BitVec.add_zero _).symm⟩
  | cons pt pts ih =>
    intro s hp
    obtain ⟨t, ht, hpc, hkey, hnonce, hcounter⟩ := ih (afterCycle pt s) rfl
    refine ⟨t, follow_trans (follow_encryptCycle pt hp) ht, hpc, hkey, hnonce, ?_⟩
    calc join64 t.counter
      _ = join64 (incCounter s.counter) + BitVec.ofNat 64 pts.length := hcounter
      _ = join64 s.counter + (1 + BitVec.ofNat 64 pts.length) := by rw [join64_incCounter, BitVec.add_assoc]
      _ = join64 s.counter + BitVec.ofNat 64 (pts.length + 1) := by rw [BitVec.ofNat_add, BitVec.add_comm 1]; rfl

/-- Settles O59: provisioning and the cycles are followed, and the machine does what is followed (`replay_of_follow`). -/
theorem sessionEncryptsEveryBlock : Obligations.SessionEncryptsEveryBlock := by
  intro s key nonce pts rest hp hroom hrx
  obtain ⟨t, ht, hpc, hkey, hnonce, hcounter⟩ := follow_cycles pts { s with key := key, nonce := nonce, pc := .waitEnc } rfl
  have hfollow : follow (session s.cfg.sigma key nonce s.counter pts) s = some t :=
    follow_trans (follow_trans (follow_provisionKey key hp) (follow_provisionNonce nonce rfl)) ht
  exact ⟨_, replay_of_follow hroom hrx hfollow, hpc, hkey, hnonce, rfl, hcounter, rfl⟩

end Sys2Proof.Proofs
end

section
/-! SUPPORT. Proofs of the statements about the checksum (40_checksum.md): one round as an injective linear map, a byte as
eight rounds of it, and a flipped bit as the rounds it still has to go through. -/

namespace Sys2Proof.Proofs

open Sys2Proof Sys2Proof.Machine Function

/-! ### One round (40_checksum.md R111) -/

/-- A round with data bit 0 is a round of the equivalent form (40_checksum.md R114). -/
theorem csumBit_false (c : Byte) : csumBit c false = csumShift c := by rw [csumBit, csumShift, Bool.xor_false]

/-- A data bit equal to the register's bit 0 gives feedback 0: the register is only shifted. Here it has been shifted `k`
times before, and bit 0 is what was its bit `k`. -/
theorem csumBit_ushiftRight (x : Byte) (k : Nat) : csumBit (x >>> k) (x.getLsbD k) = x >>> (k + 1) := by
  rw [csumBit, BitVec.getLsbD_ushiftRight, Nat.add_zero, Bool.xor_self, BitVec.shiftRight_add]
  rfl

/-- What the feedback bit brings in: the polynomial, or nothing. -/
def feedbackPoly (fb : Bool) : Byte := if fb then Config.csumPoly else 0#8

theorem feedbackPoly_xor : ∀ f g : Bool, feedbackPoly (f ^^ g) = feedbackPoly f ^^^ feedbackPoly g := by decide

theorem csumBit_eq (c : Byte) (d : Bool) : csumBit c d = c >>> 1 ^^^ feedbackPoly (c.getLsbD 0 ^^ d) := by
  rw [csumBit]
  cases (c.getLsbD 0 ^^ d)
  · exact BitVec.xor_zero.symm
  · rfl

/-- A round is linear in the register and the data bit together, for the feedback bit is. -/
theorem csumBit_xor (a b : Byte) (d e : Bool) : csumBit (a ^^^ b) (d ^^ e) = csumBit a d ^^^ csumBit b e := by
  have hfeedback : ((a ^^^ b).getLsbD 0 ^^ (d ^^ e)) = ((a.getLsbD 0 ^^ d) ^^ (b.getLsbD 0 ^^ e)) := by
    simp only [BitVec.getLsbD_xor, Bool.xor_assoc, Bool.xor_left_comm]
  rw [csumBit_eq, csumBit_eq, csumBit_eq, hfeedback, feedbackPoly_xor, BitVec.ushiftRight_xor_distrib]
  ac_rfl

theorem csumShift_semiconj_xor : Semiconj₂ csumShift (· ^^^ ·) (· ^^^ ·) := fun a b => by
  simp only [← csumBit_false]
  exact csumBit_xor a b false false

/-- The polynomial has bit 7, so a register that becomes 0 had bit 0 clear, and nothing else in it. -/
theorem eq_zero_of_csumShift_eq_zero : ∀ {c : Byte}, csumShift c = 0#8 → c = 0#8 := by decide

theorem csumShift_injective : Injective csumShift := fun a b hab => by
  rw [← BitVec.xor_eq_zero_iff]
  apply eq_zero_of_csumShift_eq_zero
  rw [csumShift_semiconj_xor.eq, hab, BitVec.xor_self]

/-! ### Rounds in a row -/

theorem iterate_csumShift_xor (n : Nat) (a b : Byte) :
    csumShift^[n] (a ^^^ b) = csumShift^[n] a ^^^ csumShift^[n] b :=
  csumShift_semiconj_xor.iterate n a b

theorem iterate_csumShift_zero (n : Nat) : csumShift^[n] 0#8 = 0#8 := iterate_fixed rfl n

theorem iterate_csumShift_eq_zero_iff (n : Nat) (c : Byte) : csumShift^[n] c = 0#8 ↔ c = 0#8 := by
  conv_lhs => rw [← iterate_csumShift_zero n]
  exact (csumShift_injective.iterate n).eq_iff

/-- Bit 0 alone comes back after 127 rounds. As 127 is prime the period could else only be 1, and one round changes it. -/
theorem minimalPeriod_csumShift_one : minimalPeriod csumShift 1 = 127 :=
  have : Fact (Nat.Prime 127) := ⟨by norm_num⟩
  minimalPeriod_eq_prime (p := 127) (by unfold IsPeriodicPt IsFixedPt; decide +kernel) (by unfold IsFixedPt; decide)

/-- Bit 0 alone goes to the same register by `m` rounds and by `n` exactly when the difference is a multiple of 127. -/
theorem iterate_csumShift_one_eq_iff {m n : Nat} (hmn : m ≤ n) :
    csumShift^[n] 1 = csumShift^[m] 1 ↔ 127 ∣ n - m := by
  obtain ⟨k, rfl⟩ := Nat.exists_eq_add_of_le hmn
  rw [Nat.add_sub_cancel_left, ← minimalPeriod_csumShift_one, ← isPeriodicPt_iff_minimalPeriod_dvd, iterate_add_apply]
  exact (csumShift_injective.iterate m).eq_iff

/-- Bit `i` of the register alone is bit 0 alone after `i` rounds. -/
theorem iterate_csumShift_bit {i : Nat} (hi : i < 8) : csumShift^[8] ((1 : Byte) <<< i) = csumShift^[8 - i] 1 := by
  have hfall : ∀ i < 8, csumShift^[i] ((1 : Byte) <<< i) = 1 := by decide
  calc csumShift^[8] ((1 : Byte) <<< i)
    _ = csumShift^[8 - i + i] ((1 : Byte) <<< i) := by rw [Nat.sub_add_cancel hi.le]
    _ = csumShift^[8 - i] 1 := by rw [iterate_add_apply, hfall i hi]

/-! ### One byte (40_checksum.md R112, R114) -/

theorem csumByte_xor (a b x y : Byte) : csumByte (a ^^^ b) (x ^^^ y) = csumByte a x ^^^ csumByte b y := by
  simp only [csumByte, List.foldl_cons, List.foldl_nil, BitVec.getLsbD_xor, csumBit_xor]

theorem csumByte_zero_right (c : Byte) : csumByte c 0#8 = csumShift^[8] c := by
  simp only [csumByte, List.foldl_cons, List.foldl_nil, BitVec.getLsbD_zero, csumBit_false]
  rfl

/-- Round `k` meets bit `k` of the byte at bit 0 of the register: the feedback is 0 in every round, and the register is
shifted out. -/
theorem csumByte_self (x : Byte) : csumByte x x = 0#8 := by
  calc csumByte x x
    _ = csumByte (x >>> 0) x := by rw [BitVec.ushiftRight_zero]
    _ = x >>> 8 := by simp only [csumByte, List.foldl_cons, List.foldl_nil, csumBit_ushiftRight]
    _ = 0#8 := BitVec.ushiftRight_eq_zero le_rfl

/-- A byte is its exclusive-or with the register, then eight rounds. -/
theorem csumByte_eq_iterate (c x : Byte) : csumByte c x = csumShift^[8] (c ^^^ x) :=
  calc csumByte c x
    _ = csumByte ((c ^^^ x) ^^^ x) (0#8 ^^^ x) := by
        rw [BitVec.xor_assoc, BitVec.xor_self, BitVec.xor_zero, BitVec.zero_xor]
    _ = csumByte (c ^^^ x) 0#8 ^^^ csumByte x x := csumByte_xor _ _ _ _
    _ = csumShift^[8] (c ^^^ x) := by rw [csumByte_self, BitVec.xor_zero, csumByte_zero_right]

/-- Settles O9: all three are eight rounds on the exclusive-or of the register and the byte. -/
theorem checksumByteFormsAgree : Obligations.ChecksumByteFormsAgree := by
  intro c x
  have hsingle : csum [c ^^^ x] = csumShift^[8] (c ^^^ x) :=
    (csumByte_eq_iterate 0#8 _).trans (by rw [BitVec.zero_xor])
  exact ⟨csumByte_eq_iterate c x, (csumByte_eq_iterate c x).trans hsingle.symm⟩

/-! ### A span (40_checksum.md R113, R115, R116) -/

theorem foldl_csumByte_zipWith_xor {s t : List Byte} (hlen : s.length = t.length) (a b : Byte) :
    (List.zipWith (fun x y => x ^^^ y) s t).foldl csumByte (a ^^^ b) = s.foldl csumByte a ^^^ t.foldl csumByte b := by
  induction s generalizing t a b with
  | nil =>
    obtain rfl := List.length_eq_zero_iff.mp hlen.symm
    rfl
  | cons x s ih =>
    obtain _ | ⟨y, t⟩ := t
    · contradiction
    · rw [List.zipWith_cons_cons, List.foldl_cons, csumByte_xor, ih (Nat.succ_inj.mp hlen)]
      rfl

/-- Settles O10: the linearity of the span's register, from the initial register `0x00 = 0x00 ^^^ 0x00`. -/
theorem checksumIsLinear : Obligations.ChecksumIsLinear :=
  fun _ _ hlen => foldl_csumByte_zipWith_xor hlen 0 0

/-- Settles O11: eight rounds on the exclusive-or of the checksum and the byte give 0 exactly when the two are equal. -/
theorem checksumOfSpanAndChecksumIsZero : Obligations.ChecksumOfSpanAndChecksumIsZero := by
  intro s c
  have hsnoc : csum (s ++ [c]) = csumByte (csum s) c := List.foldl_append
  rw [hsnoc, csumByte_eq_iterate]
  exact (iterate_csumShift_eq_zero_iff _ _).trans (BitVec.xor_eq_zero_iff.trans eq_comm)

/-! ### Flipped bits (40_checksum.md R117) -/

/-- A difference in the register goes through eight rounds for each byte that follows. -/
theorem foldl_csumByte_xor (s : List Byte) (c d : Byte) :
    s.foldl csumByte (c ^^^ d) = s.foldl csumByte c ^^^ csumShift^[8 * s.length] d := by
  induction s generalizing c d with
  | nil => rfl
  | cons x s ih =>
    have hbyte : csumByte (c ^^^ d) x = csumByte c x ^^^ csumShift^[8] d := by
      rw [← csumByte_zero_right, ← csumByte_xor, BitVec.xor_zero]
    rw [List.foldl_cons, hbyte, ih, ← iterate_add_apply]
    rfl

theorem xor_eq_left_iff (a d : Byte) : a ^^^ d = a ↔ d = 0#8 := by
  rw [← BitVec.xor_right_inj (x := d) a, BitVec.xor_zero]

theorem length_flipBit (s : List Byte) (i : Nat) : (flipBit s i).length = s.length := List.length_modify ..

theorem flipBit_cons_of_lt (x : Byte) (s : List Byte) {i : Nat} (hi : i < 8) :
    flipBit (x :: s) i = (x ^^^ (1 : Byte) <<< i) :: s := by
  rw [flipBit, Nat.div_eq_of_lt hi, Nat.mod_eq_of_lt hi, List.modify_zero_cons]

theorem flipBit_cons_add (x : Byte) (s : List Byte) (i : Nat) : flipBit (x :: s) (i + 8) = x :: flipBit s i := by
  rw [flipBit, Nat.add_div_right i (by decide), Nat.add_mod_right, List.modify_succ_cons, flipBit]

/-- A flipped bit shows as bit 0 alone, after the rounds from its own to the last. -/
theorem foldl_csumByte_flipBit (s : List Byte) (c : Byte) (i : Nat) (hi : i < 8 * s.length) :
    (flipBit s i).foldl csumByte c = s.foldl csumByte c ^^^ csumShift^[8 * s.length - i] 1 := by
  induction s generalizing c i with
  | nil => contradiction
  | cons x s ih =>
    rw [List.length_cons] at hi ⊢
    obtain hlt | ⟨i, rfl⟩ := (lt_or_ge i 8).imp_right Nat.exists_eq_add_of_le'
    · have hbyte : csumByte c (x ^^^ (1 : Byte) <<< i) = csumByte c x ^^^ csumShift^[8 - i] 1 := by
        rw [csumByte_eq_iterate, csumByte_eq_iterate, ← BitVec.xor_assoc, iterate_csumShift_xor,
          iterate_csumShift_bit hlt]
      have hrounds : 8 * (s.length + 1) - i = 8 * s.length + (8 - i) := by omega
      rw [flipBit_cons_of_lt x s hlt, List.foldl_cons, hbyte, foldl_csumByte_xor, ← iterate_add_apply, hrounds]
      rfl
    · have hrounds : 8 * (s.length + 1) - (i + 8) = 8 * s.length - i := by omega
      rw [flipBit_cons_add, List.foldl_cons, ih _ i (by omega), hrounds]
      rfl

theorem csum_flipBit {s : List Byte} {i : Nat} (hi : i < 8 * s.length) :
    csum (flipBit s i) = csum s ^^^ csumShift^[8 * s.length - i] 1 :=
  foldl_csumByte_flipBit s _ i hi

/-- Settles O12: one bit shows as a register that is never 0, and two bits cancel exactly when their rounds to the end
differ by a multiple of 127 (`iterate_csumShift_one_eq_iff`), which in sixteen bytes are the first bit and the last. -/
theorem checksumDetectsErrors : Obligations.ChecksumDetectsErrors := by
  intro s hlen
  refine ⟨fun i hi heq => ?_, fun i j hij hj => ?_⟩
  · rw [csum_flipBit (by omega), xor_eq_left_iff, iterate_csumShift_eq_zero_iff] at heq
    contradiction
  · have hcsum : csum (flipBit (flipBit s i) j) = csum s ^^^ (csumShift^[128 - i] 1 ^^^ csumShift^[128 - j] 1) := by
      rw [csum_flipBit (by rw [length_flipBit]; omega), csum_flipBit (by omega), length_flipBit, hlen, BitVec.xor_assoc]
    calc csum (flipBit (flipBit s i) j) = csum s
      _ ↔ csumShift^[128 - i] 1 = csumShift^[128 - j] 1 := by rw [hcsum, xor_eq_left_iff, BitVec.xor_eq_zero_iff]
      _ ↔ 127 ∣ (128 - i) - (128 - j) := iterate_csumShift_one_eq_iff (by omega)
      _ ↔ i = 0 ∧ j = 127 := by omega

end Sys2Proof.Proofs
end

section
/-! SUPPORT. Proofs of the statements about the cipher core (41_cipher_core.md): a quarter-round on a block as a change of
four of its words, from which the rounds are permutations and a round's quarter-rounds commute; the counter; decryption. -/

namespace Sys2Proof.Proofs

open Sys2Proof Sys2Proof.Machine Function

/-! ### Rotation (41_cipher_core.md R120) -/

/-- Rotation is the library's, also where `n` is a multiple of 32: there one shifted copy is the word, the other 0. -/
theorem rotl_eq_rotateLeft (a : Word) (n : Nat) : rotl a n = a.rotateLeft n := by
  rw [rotl, BitVec.rotateLeft_def]
  split
  · next h => rw [h, Nat.sub_zero, BitVec.shiftLeft_zero, BitVec.ushiftRight_eq_zero le_rfl, BitVec.or_zero]
  · rfl

/-- Settles O13: the library's two cases, the bits rotated round and the bits shifted up, are one index modulo 32. -/
theorem rotationMovesBits : Obligations.RotationMovesBits := by
  intro a n i hi
  rw [rotl_eq_rotateLeft, BitVec.getLsbD_rotateLeft]
  have hm : n % 32 < 32 := Nat.mod_lt _ (by decide)
  generalize n % 32 = m at hm ⊢
  by_cases h : i < m
  · have hindex : (i + (32 - m)) % 32 = 32 - m + i := by omega
    rw [decide_eq_true h, cond_true, hindex]
  · have hindex : (i + (32 - m)) % 32 = i - m := by omega
    rw [decide_eq_false h, cond_false, decide_eq_true hi, Bool.true_and, hindex]

/-! ### The quarter-round (41_cipher_core.md R121, R122) -/

/-- Each update is an exclusive-or with a value that is the same before and after it, so it is undone by doing it again. -/
theorem qrInverse_qr (a b c d : Word) :
    qrInverse (qr a b c d).1 (qr a b c d).2.1 (qr a b c d).2.2.1 (qr a b c d).2.2.2 = (a, b, c, d) := by
  simp only [qrInverse, qr, xor_cancel_right]

theorem qr_qrInverse (a b c d : Word) :
    qr (qrInverse a b c d).1 (qrInverse a b c d).2.1 (qrInverse a b c d).2.2.1 (qrInverse a b c d).2.2.2 = (a, b, c, d) := by
  simp only [qrInverse, qr, xor_cancel_right]

/-- Settles O14: each of the two undoes the other, update by update. -/
theorem quarterRoundIsBijective : Obligations.QuarterRoundIsBijective :=
  fun a b c d => ⟨qrInverse_qr a b c d, qr_qrInverse a b c d⟩

/-- Four of a kind: the word indices of a quarter-round, or its four words. -/
abbrev Quad (α : Type) := α × α × α × α

/-- `QR` on the four words taken as one value. -/
def quarter (w : Quad Word) : Quad Word := qr w.1 w.2.1 w.2.2.1 w.2.2.2

theorem quarter_bijective : Bijective quarter :=
  bijective_iff_has_inverse.mpr
    ⟨fun w => qrInverse w.1 w.2.1 w.2.2.1 w.2.2.2, fun w => qrInverse_qr w.1 w.2.1 w.2.2.1 w.2.2.2,
      fun w => qr_qrInverse w.1 w.2.1 w.2.2.1 w.2.2.2⟩

/-! ### Four words of a block (41_cipher_core.md R121) -/

/-- The four word indices of a tuple, as a list. -/
def Quad.indices (t : Quad (Fin 16)) : List (Fin 16) := [t.1, t.2.1, t.2.2.1, t.2.2.2]

/-- The words of a block at the four indices. -/
def wordsAt (X : Block) (t : Quad (Fin 16)) : Quad Word := (X[t.1], X[t.2.1], X[t.2.2.1], X[t.2.2.2])

/-- The block with the words at the four indices replaced. -/
def setWordsAt (X : Block) (t : Quad (Fin 16)) (w : Quad Word) : Block :=
  (((X.set t.1 w.1).set t.2.1 w.2.1).set t.2.2.1 w.2.2.1).set t.2.2.2 w.2.2.2

theorem qrAt_eq (X : Block) (t : Quad (Fin 16)) : qrAt X t = setWordsAt X t (quarter (wordsAt X t)) := rfl

theorem block_ext {X Y : Block} (h : ∀ i : Fin 16, X[i] = Y[i]) : X = Y := Vector.ext fun i hi => h ⟨i, hi⟩

theorem getElem_setWordsAt (X : Block) (t : Quad (Fin 16)) (w : Quad Word) (i : Fin 16) :
    (setWordsAt X t w)[i] = if t.2.2.2 = i then w.2.2.2 else if t.2.2.1 = i then w.2.2.1
      else if t.2.1 = i then w.2.1 else if t.1 = i then w.1 else X[i] := by
  simp only [setWordsAt, Fin.getElem_fin, Vector.getElem_set, Fin.ext_iff]

theorem mem_indices {t : Quad (Fin 16)} {i : Fin 16} :
    i ∈ t.indices ↔ t.1 = i ∨ t.2.1 = i ∨ t.2.2.1 = i ∨ t.2.2.2 = i := by
  simp only [Quad.indices, List.mem_cons, List.not_mem_nil, or_false, eq_comm]

/-- The other twelve words are unchanged. -/
theorem getElem_setWordsAt_of_notMem {t : Quad (Fin 16)} {i : Fin 16} (hi : i ∉ t.indices) (X : Block) (w : Quad Word) :
    (setWordsAt X t w)[i] = X[i] := by
  obtain ⟨h0, h1, h2, h3⟩ : t.1 ≠ i ∧ t.2.1 ≠ i ∧ t.2.2.1 ≠ i ∧ t.2.2.2 ≠ i := by simpa [mem_indices] using hi
  rw [getElem_setWordsAt, if_neg h3, if_neg h2, if_neg h1, if_neg h0]

/-- Nothing of the old block is left at the four indices. -/
theorem getElem_setWordsAt_of_mem {t : Quad (Fin 16)} {i : Fin 16} (hi : i ∈ t.indices) (X Y : Block) (w : Quad Word) :
    (setWordsAt X t w)[i] = (setWordsAt Y t w)[i] := by
  obtain h | h | h | h := mem_indices.mp hi <;> simp only [getElem_setWordsAt, if_pos h]

theorem setWordsAt_setWordsAt (X : Block) (t : Quad (Fin 16)) (v w : Quad Word) :
    setWordsAt (setWordsAt X t v) t w = setWordsAt X t w := by
  refine block_ext fun i => ?_
  by_cases hi : i ∈ t.indices
  · exact getElem_setWordsAt_of_mem hi _ _ w
  · simp only [getElem_setWordsAt_of_notMem hi]

theorem setWordsAt_wordsAt (X : Block) (t : Quad (Fin 16)) : setWordsAt X t (wordsAt X t) = X := by
  simp only [setWordsAt, wordsAt, Fin.getElem_fin, Vector.set_getElem_self]

theorem wordsAt_setWordsAt {t : Quad (Fin 16)} (ht : t.indices.Nodup) (X : Block) (w : Quad Word) :
    wordsAt (setWordsAt X t w) t = w := by
  simp only [Quad.indices, List.nodup_cons, List.mem_cons, List.not_mem_nil, or_false, not_or] at ht
  obtain ⟨⟨h01, h02, h03⟩, ⟨h12, h13⟩, h23, -⟩ := ht
  simp only [wordsAt, getElem_setWordsAt, if_pos, if_neg (Ne.symm h01), if_neg (Ne.symm h02), if_neg (Ne.symm h03),
    if_neg (Ne.symm h12), if_neg (Ne.symm h13), if_neg (Ne.symm h23)]

theorem wordsAt_setWordsAt_of_disjoint {t u : Quad (Fin 16)} (htu : t.indices.Disjoint u.indices) (X : Block)
    (w : Quad Word) : wordsAt (setWordsAt X t w) u = wordsAt X u := by
  have hu {i : Fin 16} (hi : i ∈ u.indices) : (setWordsAt X t w)[i] = X[i] :=
    getElem_setWordsAt_of_notMem (fun ht => htu ht hi) X w
  simp only [wordsAt, hu, mem_indices, true_or, or_true]

theorem setWordsAt_comm {t u : Quad (Fin 16)} (htu : t.indices.Disjoint u.indices) (X : Block) (v w : Quad Word) :
    setWordsAt (setWordsAt X t v) u w = setWordsAt (setWordsAt X u w) t v := by
  refine block_ext fun i => ?_
  by_cases ht : i ∈ t.indices
  · rw [getElem_setWordsAt_of_notMem (htu ht)]
    exact getElem_setWordsAt_of_mem ht ..
  · rw [getElem_setWordsAt_of_notMem ht]
    by_cases hu : i ∈ u.indices
    · exact getElem_setWordsAt_of_mem hu ..
    · simp only [getElem_setWordsAt_of_notMem hu, getElem_setWordsAt_of_notMem ht]

/-- A change of four words at distinct indices that has an inverse has one on the block. -/
theorem setWordsAt_bijective {f : Quad Word → Quad Word} (hf : Bijective f) {t : Quad (Fin 16)} (ht : t.indices.Nodup) :
    Bijective fun X => setWordsAt X t (f (wordsAt X t)) := by
  have hinv {f g : Quad Word → Quad Word} (hgf : LeftInverse g f) :
      LeftInverse (fun X => setWordsAt X t (g (wordsAt X t))) fun X => setWordsAt X t (f (wordsAt X t)) := fun X => by
    simp only [wordsAt_setWordsAt ht, setWordsAt_setWordsAt, hgf _, setWordsAt_wordsAt]
  obtain ⟨g, hgf, hfg⟩ := bijective_iff_has_inverse.mp hf
  exact bijective_iff_has_inverse.mpr ⟨_, hinv hgf, hinv hfg⟩

/-! ### The rounds are permutations (41_cipher_core.md R122, R126, R127, R129) -/

theorem qrAt_bijective {t : Quad (Fin 16)} (ht : t.indices.Nodup) : Bijective fun X => qrAt X t :=
  setWordsAt_bijective quarter_bijective ht

theorem foldl_qrAt_bijective {l : List (Quad (Fin 16))} (hl : ∀ t ∈ l, t.indices.Nodup) :
    Bijective (l.foldl qrAt) := by
  induction l with
  | nil => exact bijective_id
  | cons t l ih =>
    obtain ⟨ht, hl⟩ := List.forall_mem_cons.mp hl
    exact (ih hl).comp (qrAt_bijective ht)

/-- The tuples of a column round name every word once (00_scope.md R7). -/
theorem cols_distinct : (Config.cols.flatMap Quad.indices).Nodup := by decide

theorem rows_distinct : (Config.rows.flatMap Quad.indices).Nodup := by decide

theorem columnRound_bijective : Bijective columnRound :=
  foldl_qrAt_bijective (l := Config.cols) (List.nodup_flatMap.mp cols_distinct).1

theorem rowRound_bijective : Bijective rowRound :=
  foldl_qrAt_bijective (l := Config.rows) (List.nodup_flatMap.mp rows_distinct).1

theorem doubleRound_bijective : Bijective doubleRound := by
  have hcomp := rowRound_bijective.comp columnRound_bijective
  rw [comp_def] at hcomp
  exact hcomp

theorem doubleRounds_bijective (k : Nat) : Bijective (doubleRounds k) := by
  induction k with
  | zero => exact bijective_id
  | succ k ih => exact ih.comp doubleRound_bijective

/-- Settles O15: a round is a chain of quarter-rounds, each a permutation because its four indices are distinct. -/
theorem roundsArePermutations : Obligations.RoundsArePermutations :=
  ⟨columnRound_bijective, rowRound_bijective, doubleRound_bijective, doubleRounds_bijective⟩

/-! ### The quarter-rounds of a round in any order (41_cipher_core.md R128) -/

/-- Two quarter-rounds with no index in common: neither reads or writes a word that the other writes. -/
theorem qrAt_comm {t u : Quad (Fin 16)} (htu : t.indices.Disjoint u.indices) (X : Block) :
    qrAt (qrAt X t) u = qrAt (qrAt X u) t := by
  simp only [qrAt_eq, wordsAt_setWordsAt_of_disjoint htu, wordsAt_setWordsAt_of_disjoint htu.symm]
  exact setWordsAt_comm htu ..

/-- Quarter-rounds on distinct words can run in any order: two of them are one tuple or have no index in common. -/
theorem foldl_qrAt_perm {l l' : List (Quad (Fin 16))} (hp : l.Perm l') (hl : (l'.flatMap Quad.indices).Nodup)
    (X : Block) : l.foldl qrAt X = l'.foldl qrAt X := by
  have : Std.Symm (List.Disjoint on Quad.indices) := ⟨fun _ _ h => h.symm⟩
  have hdisjoint := (List.nodup_flatMap.mp hl).2
  refine hp.foldl_eq' (fun t ht u hu Y => ?_) X
  obtain rfl | hne := eq_or_ne t u
  · rfl
  · exact qrAt_comm (hdisjoint.forall (hp.subset ht) (hp.subset hu) hne) Y

/-- Settles O16: the sixteen indices of a round are distinct. -/
theorem quarterRoundsOfARoundCommute : Obligations.QuarterRoundsOfARoundCommute :=
  fun X _ => ⟨fun hp => foldl_qrAt_perm hp cols_distinct X, fun hp => foldl_qrAt_perm hp rows_distinct X⟩

/-! ### The counter (41_cipher_core.md R132) -/

/-- Settles O17: as one value by `join64_incCounter`, half by half the cases of `INC64`. -/
theorem counterIncrementsAsOneValue : Obligations.CounterIncrementsAsOneValue := by
  refine fun C => ⟨join64_incCounter C, fun h => ⟨?_, if_pos h⟩, fun h => ⟨rfl, if_neg h⟩⟩
  calc (incCounter C)[0]
    _ = 0xFFFFFFFF + 1 := congrArg (· + 1) h
    _ = 0 := by decide

/-! ### Decryption (41_cipher_core.md R131, R134) -/

theorem xorBlocks_xorBlocks (Z P : Block) : xorBlocks Z (xorBlocks Z P) = P := by
  refine Vector.ext fun i hi => ?_
  simp only [xorBlocks, Vector.getElem_zipWith, xor_cancel_left]

/-- Settles O18: the same keystream block, whatever `SIGMA` and the operands, goes in twice by exclusive-or. -/
theorem decryptionUndoesEncryption : Obligations.DecryptionUndoesEncryption :=
  fun sigma K N C P => xorBlocks_xorBlocks (keystream (build sigma K N C)) P

end Sys2Proof.Proofs
end

section
/-! SUPPORT. Proofs of the statements about provisioning (43_session_provisioning.md): the waits and the scan for a code,
the acknowledgements, the bytes of the key and nonce frames, and the two transactions from end to end. -/

namespace Sys2Proof.Proofs

open Sys2Proof Sys2Proof.Machine Sys2Proof.Laws

/-! ### One step, from the effect of its byte (30_encoding.md R98) -/

theorem step_of_receiveByte {s t : State} {b : Byte} {rest : List Byte} (hr : s.rx = b :: rest)
    (h : receiveByte b { s with rx := rest } = some t) : step s = .next t := by
  have hk : s.pc.kind = .rx := receiveByte_kind (s := { s with rx := rest }) h
  obtain ⟨u, hu, hstep⟩ := step_receiving s b rest hk hr
  obtain rfl : t = u := Option.some.inj (h.symm.trans hu)
  exact hstep

theorem step_of_byteSent {s : State} {b : Byte} (hb : byteSent s = some b) (hroom : s.txRoom = true) :
    step s = .next { s with tx := s.tx ++ [b], pc := phaseAfterSend s } := by
  obtain ⟨c, hc, hstep⟩ := step_sending s (kind_of_byteSent hb)
  obtain rfl : b = c := Option.some.inj (hb.symm.trans hc)
  exact hstep.trans (sendThen_room _ _ _ hroom)

/-- An event of the device's own is decoded from no byte, so running it is the step. -/
theorem exec_own_eq_step {s : State} {i : Instr} (h : ownInstr s.pc s.matchFlag = some i) : exec i s = step s :=
  (stepRunsDecodedInstruction s i s.rx (decode_own h s.rx)).symm

/-! ### The three waits (R151, R156; 44_session_encrypt_cycle.md R166) -/

theorem waitFor_awaited (code : Byte) (next : Phase) (s : State) : waitFor code next code s = { s with pc := next } := by
  rw [waitFor, if_pos rfl]

theorem waitFor_stray {code b : Byte} (next : Phase) (s : State) (h : b ≠ code) : waitFor code next b s = s := by
  rw [waitFor, if_neg h]

/-- A phase that gives the byte at the head of `RX` the effect and the event of a wait goes on exactly at the code. -/
theorem wait_takes_only {s : State} {code b : Byte} {rest : List Byte} {next : Phase} (hr : s.rx = b :: rest)
    (heffect : receiveByte b { s with rx := rest } = some (waitFor code next b { s with rx := rest }))
    (hevent : raised s = if b = code then none else some (.strayByte b)) :
    (b = code → step s = .next { s with rx := rest, pc := next } ∧ raised s = none)
    ∧ (b ≠ code → step s = .next { s with rx := rest } ∧ raised s = some (.strayByte b)) := by
  have hstep := step_of_receiveByte hr heffect
  refine ⟨fun hb => ?_, fun hb => ?_⟩
  · subst hb
    rw [hstep, waitFor_awaited, hevent, if_pos rfl]
    exact ⟨rfl, rfl⟩
  · rw [hstep, waitFor_stray next _ hb, hevent, if_neg hb]
    exact ⟨rfl, rfl⟩

/-- Settles O25: each of the three phases is such a wait. -/
theorem waitsTakeOnlyTheirCode : Obligations.WaitsTakeOnlyTheirCode := by
  intro s b rest ph next code hmem hp hr
  simp only [List.mem_cons, List.not_mem_nil, or_false, Prod.mk.injEq] at hmem
  rcases hmem with ⟨rfl, rfl, rfl⟩ | ⟨rfl, rfl, rfl⟩ | ⟨rfl, rfl, rfl⟩
  all_goals
    refine wait_takes_only hr ?_ ?_
    · rw [receiveByte, hp]; rfl
    · rw [raised, hp, hr]; rfl

/-- A request code is received as any code is, and in its wait it is the awaited one. -/
theorem receiveCode_awaited (mn : String) {code : Byte} {next : Phase} {s : State}
    (heffect : receiveByte code s = some (waitFor code next code s)) : receiveCode mn code s = .next { s with pc := next } :=
  (receiveCode_next mn code s _).mpr (heffect.trans (congrArg some (waitFor_awaited code next s)))

/-- Settles O26: each request code is a received code, `ENCRYPT` outside the cipher step. -/
theorem requestCodesStartTheirTransactions : Obligations.RequestCodesStartTheirTransactions := by
  refine fun s => ⟨fun hp => ?_, fun hp => ?_, fun hp => ?_⟩
  · exact receiveCode_awaited "SEND_KEY" (by rw [receiveByte, hp])
  · exact receiveCode_awaited "SEND_NONCE" (by rw [receiveByte, hp])
  · rw [exec_encrypt_received (by simp [hp])]
    exact receiveCode_awaited "ENCRYPT" (by rw [receiveByte, hp])

/-- Settles O53, by induction on the stray bytes: each is discarded by one step, which leaves the device waiting. -/
theorem strayBytesAreScannedAway : Obligations.StrayBytesAreScannedAway := by
  intro s junk rest hp hjunk hr
  induction junk generalizing s with
  | nil => rw [← show s.rx = rest from hr]; rfl
  | cons b junk ih =>
    obtain ⟨hb, hjunk⟩ := not_or.mp (mt List.mem_cons.mpr hjunk)
    have hwait := waitsTakeOnlyTheirCode s b (junk ++ rest) .waitKey .keyAck1 0x13 (by simp) hp hr
    have hstep : step s = .next { s with rx := junk ++ rest } := (hwait.2 (Ne.symm hb)).1
    have hrun := ih { s with rx := junk ++ rest } hp hjunk rfl
    simpa [Host.Core.run, core, hstep] using hrun

/-! ### The acknowledgements (R152, R154, R157, R159; 44_session_encrypt_cycle.md R167) -/

/-- In a phase whose own event is `ACK`, with room in `TX`, the device sends the code and goes on. -/
theorem ack_sent {s : State} {next : Phase} (hown : ownInstr s.pc s.matchFlag = some .ack)
    (hb : byteSent s = some Config.codeAck) (hnext : phaseAfterSend s = next) (hroom : s.txRoom = true) :
    exec .ack s = .next { s with tx := s.tx ++ [0xB1], pc := next }
    ∧ step s = .next { s with tx := s.tx ++ [0xB1], pc := next } ∧ label s = some (.tx 0xB1) := by
  subst hnext
  have hstep := step_of_byteSent hb hroom
  exact ⟨(exec_own_eq_step hown).trans hstep, hstep, label_sending (kind_of_byteSent hb) hroom hb⟩

/-- Settles O28: in each of the five phases the event is `ACK`, whatever the rest of the state. -/
theorem acknowledgementsAreUnconditional : Obligations.AcknowledgementsAreUnconditional := by
  intro s ph next hmem hp hroom
  simp only [List.mem_cons, List.not_mem_nil, or_false, Prod.mk.injEq] at hmem
  rcases hmem with ⟨rfl, rfl⟩ | ⟨rfl, rfl⟩ | ⟨rfl, rfl⟩ | ⟨rfl, rfl⟩ | ⟨rfl, rfl⟩
  all_goals exact ack_sent (by rw [hp]; rfl) (by rw [byteSent, hp]) (by rw [phaseAfterSend, hp]) hroom

/-! ### The bytes of the frames (R153, R158) -/

/-- The fourth lane written completes a word. -/
theorem setLane_three (w : Word) (b : Byte) :
    setLane w 3 b = wordLE (getLane w 0) (getLane w 1) (getLane w 2) b := by
  obtain ⟨h0, h1, h2, h3⟩ := getLane_wordLE (getLane w 0) (getLane w 1) (getLane w 2) b
  refine word_eq_of_lanes fun j hj => ?_
  rw [getLane_setLane w b hj]
  interval_cases j
  · exact h0.symm
  · exact h1.symm
  · exact h2.symm
  · exact h3.symm

theorem getElem_setFileByte_last {k : Nat} (F : Vector Word k) (n : Fin (4 * k)) (i : Fin k) (b : Byte)
    (h : n.val = 4 * i.val + 3) :
    (setFileByte F n b)[i] = wordLE (getLane F[i] 0) (getLane F[i] 1) (getLane F[i] 2) b := by
  have hword : n.val / 4 = i.val := by omega
  have hlane : n.val % 4 = 3 := by omega
  rw [← setLane_three]
  simp [setFileByte, hword, hlane]

/-- Byte `j` of the 64-bit value of two words is byte `j` of their file (20_memory.md R52). -/
theorem byte_join64 (N : Halves) (j : Fin 8) : (join64 N >>> (8 * j.val)).setWidth 8 = fileByte (k := 2) N j := by
  refine BitVec.eq_of_getLsbD_eq fun i hi => ?_
  rw [fileByte, getLsbD_getLane_of_lt _ _ hi, BitVec.getLsbD_setWidth, decide_eq_true hi, Bool.true_and,
    BitVec.getLsbD_ushiftRight, join64, BitVec.getLsbD_append]
  have hj : j.val < 8 := j.isLt
  by_cases hlow : j.val < 4
  · simp [show 8 * j.val + i < 32 by omega, show j.val / 4 = 0 by omega, show j.val % 4 = j.val by omega]
  · simp [show ¬ 8 * j.val + i < 32 by omega, show j.val / 4 = 1 by omega,
      show 8 * j.val + i - 32 = 8 * (j.val % 4) + i by omega]

/-- Settles O29: the event is the rule of the key frame, which writes one byte of the file `K`. -/
theorem keyByteGoesToItsLane : Obligations.KeyByteGoesToItsLane := by
  intro s n b hp
  have heffect : receiveByte b s = some (keyDataRule n b s) := by rw [receiveByte, hp]
  have hexec : exec (.keyFrame b) s = .next (keyDataRule n b s) := by rw [exec, execKeyFrame, hp]
  refine ⟨keyDataRule n b s, hexec, step_of_receiveByte rfl heffect, ?_, fun j => ?_, fun i hi => ?_⟩
  · rw [← afterKeyByte_eq]; rfl
  · exact fileByte_setFileByte s.key n j b
  · exact getElem_setFileByte_last s.key n i b hi

/-- Settles O30: the event is the rule of the nonce frame, which writes one byte of the file `N`. -/
theorem nonceByteGoesToItsLane : Obligations.NonceByteGoesToItsLane := by
  intro s n b hp
  have heffect : receiveByte b s = some (nonceDataRule n b s) := by rw [receiveByte, hp]
  have hexec : exec (.nonceFrame b) s = .next (nonceDataRule n b s) := by rw [exec, execNonceFrame, hp]
  refine ⟨nonceDataRule n b s, hexec, step_of_receiveByte rfl heffect, ?_, fun j => ?_, byte_join64 _⟩
  · rw [← afterNonceByte_eq]; rfl
  · exact fileByte_setFileByte s.nonce n j b

/-! ### The transactions (R150, R155; 30_encoding.md R106) -/

theorem deviceBytes_provisionKey (key : Key) : deviceBytes (provisionKey key) = [0xB1, 0xB1] := by
  simp [provisionKey, Config.codeAck]

theorem deviceBytes_provisionNonce (nonce : Halves) : deviceBytes (provisionNonce nonce) = [0xB1, 0xB1] := by
  simp [provisionNonce, Config.codeAck]

/-- Settles O54: the transaction's effect is `follow_provisionKey`, and `replay_of_follow` puts the queues to it. -/
theorem keyIsProvisioned : Obligations.KeyIsProvisioned := by
  intro s key rest hp hroom hrx
  rw [replay_of_follow hroom hrx (follow_provisionKey key hp), deviceBytes_provisionKey]

/-- Settles O55: the transaction's effect is `follow_provisionNonce`, and `replay_of_follow` puts the queues to it. -/
theorem nonceIsProvisioned : Obligations.NonceIsProvisioned := by
  intro s nonce rest hp hroom hrx
  rw [replay_of_follow hroom hrx (follow_provisionNonce nonce hp), deviceBytes_provisionNonce]

end Sys2Proof.Proofs
end

section
/-! SUPPORT. Proofs of the statements about the encrypt cycle (44_session_encrypt_cycle.md): the byte events of its phases,
a packet received and a packet sent from end to end, and a clean cycle. -/

namespace Sys2Proof.Proofs

open Sys2Proof Sys2Proof.Machine Sys2Proof.Laws

/-! ### A packet byte by byte (R169, R170) -/

/-- The step on a byte put at the head of `RX` is the byte's effect. -/
theorem step_on_byte {s t : State} {b : Byte} (h : receiveByte b s = some t) :
    step { s with rx := b :: s.rx } = .next t :=
  step_of_receiveByte rfl h

/-- Settles O31: the event is the rule of the payload byte, which writes one byte of `IN`. -/
theorem payloadByteIsStoredInPlace : Obligations.PayloadByteIsStoredInPlace := by
  intro s p n b hp
  have heffect : receiveByte b s = some (rxDataRule p n b s) := by rw [receiveByte, hp]
  have hexec : exec (.packetRx b) s = .next (rxDataRule p n b s) := by rw [exec, execPacketRx, hp]
  refine ⟨rxDataRule p n b s, hexec, step_on_byte heffect, ?_, fun a => ?_⟩
  · rw [← afterRxByte_eq]; rfl
  · exact read_write s.inBuf (packetAddr p n.val) a b

/-- Settles O32: the event is the rule of the checksum byte, which compares it with `packetCsum`. -/
theorem checksumByteSetsMatch : Obligations.ChecksumByteSetsMatch := by
  intro s p b hp
  have heffect : receiveByte b s = some (rxCsumRule p b s) := by rw [receiveByte, hp]
  have hexec : exec (.packetRx b) s = .next (rxCsumRule p b s) := by rw [exec, execPacketRx, hp]
  refine ⟨hexec, (step_on_byte heffect).trans hexec.symm, ?_⟩
  rw [raised, hp]; rfl

/-! ### The device's own bytes (R171, R174, R177, R178) -/

/-- With room in `TX`, the instruction a tx phase selects sends the phase's byte and goes on, and it is the step. -/
theorem own_sent {s : State} {i : Instr} {b : Byte} {next : Phase} (hown : ownInstr s.pc s.matchFlag = some i)
    (hb : byteSent s = some b) (hnext : phaseAfterSend s = next) (hroom : s.txRoom = true) :
    exec i s = .next { s with tx := s.tx ++ [b], pc := next } ∧ step s = exec i s := by
  subst hnext
  have hexec := exec_own_eq_step hown
  exact ⟨hexec.trans (step_of_byteSent hb hroom), hexec.symm⟩

/-- Settles O33: `MATCH` selects the reply, and the other one is well formed nowhere in the phase. -/
theorem replyFollowsMatch : Obligations.ReplyFollowsMatch := by
  intro s p hp hroom
  have hk : s.pc.kind ≠ .rx := by simp [hp, Phase.kind]
  refine ⟨fun hm => ?_, fun hm => ?_⟩
  · obtain ⟨hexec, hstep⟩ := own_sent (i := .ack) (b := 0xB1) (next := if p = 3 then .encrypt else .rxData (p + 1) 0)
      (by simp [hp, hm, ownInstr]) (by simp [byteSent, hp, hm, Config.codeAck])
      (by simp [phaseAfterSend, hp, hm, afterRxPacket_eq]) hroom
    exact ⟨hexec, hstep, exec_nack_refused hk (by simp [hp, hm, wellFormed])⟩
  · obtain ⟨hexec, hstep⟩ := own_sent (i := .nack) (b := 0xC2) (next := .rxData p 0) (by simp [hp, hm, ownInstr])
      (by simp [byteSent, hp, hm, Config.codeNack]) (by simp [phaseAfterSend, hp, hm]) hroom
    exact ⟨hexec, hstep, exec_ack_refused hk (by simp [hp, hm, wellFormed])⟩

/-- Settles O35: the announcement is the phase's own event. -/
theorem announcementIsSent : Obligations.AnnouncementIsSent := by
  intro s hp hroom
  have hb : byteSent s = some 0x15 := by rw [byteSent, hp]; rfl
  obtain ⟨hexec, hstep⟩ := own_sent (by rw [hp]; rfl) hb (by rw [phaseAfterSend, hp]) hroom
  exact ⟨hexec, hstep, label_sending (kind_of_byteSent hb) hroom hb⟩

/-- The byte at `16p + n` is lane `n mod 4` of word `4p + n div 4` (20_memory.md R57). -/
theorem read_packet_eq_getLane (m : Memory) (p : Fin 4) (n : Fin 16) :
    m.read (16 * p.val + n.val) = getLane (m.block[4 * p.val + n.val / 4]'(by omega)) (n.val % 4) := by
  have haddr : 4 * (4 * p.val + n.val / 4) + n.val % 4 = 16 * p.val + n.val := by omega
  rw [getElem_block, getLane_word _ _ (Nat.mod_lt _ (by decide)), haddr]

/-- Settles O37: each byte of the packet is its phase's own event. -/
theorem ciphertextPacketBytesAreSent : Obligations.CiphertextPacketBytesAreSent := by
  refine fun s p hroom => ⟨fun n hp => ?_, fun hp => ?_⟩
  · have hnext : phaseAfterSend s = if n = 15 then .txCsum p else .txData p (n + 1) := by
      rw [← afterTxByte_eq, phaseAfterSend, hp]
    obtain ⟨hexec, hstep⟩ := own_sent (by rw [hp]; rfl) (by rw [byteSent, hp]) hnext hroom
    exact ⟨hexec, hstep, read_packet_eq_getLane s.outBuf p n⟩
  · exact own_sent (by rw [hp]; rfl) (by rw [byteSent, hp]; rfl) (by rw [phaseAfterSend, hp]) hroom

/-! ### The cipher step (R172) -/

/-- Settles O34: the step is `encryptRule`, which writes `OUT` as one block and increments the counter. -/
theorem encryptStepEncryptsOnce : Obligations.EncryptStepEncryptsOnce := by
  intro s hp
  have hstep := step_encrypting s hp
  have hexec : exec .encrypt s = step s := exec_own_eq_step (by rw [hp]; rfl)
  exact ⟨encryptRule s, hexec.trans hstep, hstep, rfl, block_writeBlock _ _, (encryptRule_frame hp).outBuf_beyond,
    join64_incCounter s.counter, label_encrypting hp, by rw [raised, hp]⟩

/-! ### The replies of the host (R175, R179) -/

theorem announceAckRule_ack (s : State) : announceAckRule 0xB1 s = { s with pc := .txData 0 0 } := if_pos rfl

theorem announceAckRule_other {b : Byte} (hb : b ≠ 0xB1) (s : State) : announceAckRule b s = { s with pc := .halt } :=
  if_neg hb

theorem txAckRule_ack (p : Fin 4) (s : State) : txAckRule p 0xB1 s = { s with pc := Phase.afterTxPacket p } := rfl

theorem txAckRule_other (p : Fin 4) {b : Byte} (hb : b ≠ 0xB1) (s : State) :
    txAckRule p b s = { s with pc := .txData p 0 } := by
  rw [txAckRule, if_neg (show b ≠ Config.codeAck from hb)]

/-- In a phase that receives, `ACK` and `NACK` are the step on their bytes. -/
theorem exec_reply_eq_step {s : State} (hk : s.pc.kind = .rx) :
    exec .ack s = step { s with rx := 0xB1 :: s.rx } ∧ exec .nack s = step { s with rx := 0xC2 :: s.rx } :=
  ⟨(controlCodesRunInEveryReceivingPhase s .ack 0xB1 (by simp) hk).1,
    (controlCodesRunInEveryReceivingPhase s .nack 0xC2 (by simp) hk).1⟩

/-- Settles O36: the step on any byte is `announceAckRule`, and `NACK` is one of the other bytes. -/
theorem handshakeByteDecides : Obligations.HandshakeByteDecides := by
  intro s b hp
  have hstep (c : Byte) : step { s with rx := c :: s.rx } = .next (announceAckRule c s) :=
    step_on_byte (by rw [receiveByte, hp])
  have hevent : raised { s with rx := b :: s.rx } = if b = 0xB1 then none else some (.desync b) := by
    rw [raised, hp]; rfl
  obtain ⟨hack, hnack⟩ := exec_reply_eq_step (s := s) (by rw [hp]; rfl)
  refine ⟨fun hb => ?_, fun hb => ?_, ?_⟩
  · subst hb
    rw [hack, hstep, announceAckRule_ack, hevent, if_pos rfl]
    exact ⟨rfl, rfl, rfl⟩
  · rw [hstep, announceAckRule_other hb, hevent, if_neg hb]
    exact ⟨rfl, rfl⟩
  · rw [hnack, hstep, announceAckRule_other (by decide)]

/-- Settles O38: the step on any byte is `txAckRule`, which gives `NACK` and the byte `b` one effect. -/
theorem packetReplyDecides : Obligations.PacketReplyDecides := by
  intro s p b hp
  have hstep (c : Byte) : step { s with rx := c :: s.rx } = .next (txAckRule p c s) :=
    step_on_byte (by rw [receiveByte, hp])
  have hevent : raised { s with rx := b :: s.rx } = if b = 0xB1 then none else some (.peerReject p b) := by
    rw [raised, hp]; rfl
  obtain ⟨hack, hnack⟩ := exec_reply_eq_step (s := s) (by rw [hp]; rfl)
  refine ⟨fun hb => ?_, fun hb => ?_⟩
  · subst hb
    rw [hack, hstep, txAckRule_ack, afterTxPacket_eq, hevent, if_pos rfl]
    exact ⟨rfl, rfl, rfl⟩
  · rw [hnack, hstep, hstep, txAckRule_other p hb, txAckRule_other p (by decide), hevent, if_neg hb]
    exact ⟨rfl, rfl, rfl⟩

/-! ### Packets from end to end (R168, R176) -/

theorem run_succ {s t : State} (n : Nat) (h : step s = .next t) :
    Host.Core.run core (n + 1) s = Host.Core.run core n t := by
  simp [Host.Core.run, core, h]

theorem replay_cons_eq_some {x : Label} {l : Transcript} {s t : State} (h : replay (x :: l) s = some t) :
    ∃ u, step s = .next u ∧ label s = some x ∧ replay l u = some t := by
  cases hs : step s <;> simp_all [replay]

/-- A run of as many steps as a transcript has labels reaches the state the transcript leads to. -/
theorem run_of_replay {l : Transcript} {s t : State} (h : replay l s = some t) :
    Host.Core.run core l.length s = .next t := by
  induction l generalizing s with
  | nil => cases h; rfl
  | cons x l ih =>
    obtain ⟨u, hstep, -, hl⟩ := replay_cons_eq_some h
    exact (run_succ l.length hstep).trans (ih hl)

/-- The transcript of a packet received with its reply (R168 to R171). -/
def rxPacket (d : List Byte) (c : Byte) : Transcript :=
  fromHost (d ++ [c]) ++ toHost [if c = csum d then Config.codeAck else Config.codeNack]

theorem deviceBytes_rxPacket (d : List Byte) (c : Byte) :
    deviceBytes (rxPacket d c) = [if c = csum d then 0xB1 else 0xC2] := by
  rw [rxPacket, deviceBytes_append, deviceBytes_fromHost, deviceBytes_toHost]
  rfl

/-- Sixteen bytes are stored and compared with the checksum byte, and the reply and the next phase follow `MATCH`. -/
theorem follow_rxPacket {p : Fin 4} {d : List Byte} (c : Byte) (hd : d.length = 16) {s : State}
    (hp : s.pc = .rxData p 0) :
    follow (rxPacket d c) s = some { s with
      inBuf := s.inBuf.writeBytes (packetAddr p 0) d
      matchFlag := decide (c = csum d)
      pc := if c = csum d then Phase.afterRxPacket p else .rxData p 0 } := by
  have hdata := follow_rxData p d 0 s (by omega) hp
  have hcsum : packetCsum (s.inBuf.writeBytes (packetAddr p 0) d) p = csum d := by
    rw [packetCsum, ← hd, readBytes_writeBytes]
  have hmatch : follow (fromHost [c]) { s with inBuf := s.inBuf.writeBytes (packetAddr p 0) d, pc := .rxCsum p }
      = some { s with
          inBuf := s.inBuf.writeBytes (packetAddr p 0) d, matchFlag := decide (c = csum d), pc := .rxReply p } :=
    follow_received (by simp [receiveByte, rxCsumRule, matchOf, hcsum, beq_eq_decide])
  rw [rxPacket, fromHost, List.map_append]
  refine (follow_trans (follow_trans hdata hmatch) (follow_sent ?_)).trans ?_
  · simp [byteSent]
  · simp [phaseAfterSend]

/-- Settles O56: the eighteen steps are the transcript `rxPacket`. -/
theorem packetIsReceived : Obligations.PacketIsReceived := by
  intro s p d rest c hp hroom hd hrx
  have hreplay := replay_of_follow (rest := rest) hroom (by simpa [rxPacket] using hrx) (follow_rxPacket c hd hp)
  have hlen : (rxPacket d c).length = 18 := by simp [rxPacket, hd]
  have hrun := run_of_replay hreplay
  rw [hlen, afterRxPacket_eq, deviceBytes_rxPacket] at hrun
  exact hrun

/-- The transcript of a packet sent with the host's verdict (R176 to R179). -/
def txPacket (F : Block) (p : Fin 4) (b : Byte) : Transcript := toHost (packetBytes F p) ++ fromHost [b]

theorem deviceBytes_txPacket (F : Block) (p : Fin 4) (b : Byte) : deviceBytes (txPacket F p b) = packetBytes F p := by
  simp [txPacket]

/-- A packet of the block in `OUT` is sent, and the verdict decides the next phase. -/
theorem follow_txPacket (p : Fin 4) (b : Byte) {s : State} (hp : s.pc = .txData p 0) :
    follow (txPacket s.outBuf.block p b) s = some (txAckRule p b s) := by
  have hdata := follow_txData p 16 0 s rfl hp
  rw [readBytes_eq_payload] at hdata
  have hcsum : follow (toHost [csum (payload s.outBuf.block p)]) { s with pc := .txCsum p }
      = some { s with pc := .txAck p } :=
    follow_sent (by simp only [byteSent, packetCsum, readBytes_eq_payload])
  rw [txPacket, packetBytes_eq, toHost, List.map_append]
  exact follow_trans (follow_trans hdata hcsum) (follow_received rfl)

/-- Settles O57: the eighteen steps are the transcript `txPacket`. -/
theorem packetIsSent : Obligations.PacketIsSent := by
  intro s p b rest hp hroom hrx
  have hreplay := replay_of_follow (rest := rest) hroom (by simpa [txPacket] using hrx) (follow_txPacket p b hp)
  have hlen : (txPacket s.outBuf.block p b).length = 18 := by simp [txPacket]
  have hrun := run_of_replay hreplay
  rw [hlen, txAckRule, afterTxPacket_eq, deviceBytes_txPacket] at hrun
  exact hrun

/-! ### A clean cycle (R165, R173, R188) -/

/-- Settles O58: the cycle is followed to `afterCycle` (`follow_encryptCycle`), and `replay_of_follow` puts the queues to
it. -/
theorem cleanCycleEncryptsOneBlock : Obligations.CleanCycleEncryptsOneBlock := by
  intro s pt ct rest hp hroom hct hrx
  subst hct
  refine ⟨_, replay_of_follow hroom hrx (follow_encryptCycle pt hp), ?_, block_writeBlock _ _, block_writeBlock _ _⟩
  rw [afterCycle, ← hp]

end Sys2Proof.Proofs
end

section
/-! SUPPORT. Proofs of the statements about the protocol events and the halt (60_exceptions.md): which step enters `P_HALT`,
and what can still happen there. -/

namespace Sys2Proof.Proofs

open Sys2Proof Sys2Proof.Machine Sys2Proof.Laws

/-! ### Entry to the halt (R195, R196, R200) -/

/-- `Desync` is the event of the handshake and of no other phase (R190). -/
theorem raised_desync_iff (s : State) (b : Byte) :
    raised s = some (.desync b) ↔ s.pc = .announceAck ∧ ∃ rest, s.rx = b :: rest ∧ b ≠ 0xB1 := by
  cases hr : s.rx with
  | nil => cases hp : s.pc <;> simp [raised, hp, hr]
  | cons c rest =>
    cases hp : s.pc <;> simp only [raised, hp, hr]
    case announceAck =>
      rw [Option.ite_none_left_eq_some]
      by_cases hcb : c = b <;> simp [hcb, Config.codeAck]
    all_goals simp

/-- One arrow of the graph ends in `P_HALT`. -/
theorem graph_halt_iff (ph : Phase) (b : Byte) (m : Bool) :
    graph ph b m = some .halt ↔ ph = .announceAck ∧ b ≠ 0xB1 := by
  cases ph <;> simp only [graph, Option.some.injEq, reduceCtorEq, false_and, true_and]
  case announceAck => rw [ite_eq_right_iff]; simp
  all_goals split_ifs <;> simp

/-- A step enters the halt exactly at the handshake, on a byte other than `ACK`. -/
theorem step_halts_iff {s t : State} (h : step s = .next t) :
    t.pc = .halt ↔ s.pc = .announceAck ∧ ∃ b rest, s.rx = b :: rest ∧ b ≠ 0xB1 := by
  rw [← Option.some_inj, ← phasesFollowTheGraph s t h, graph_halt_iff]
  refine and_congr_right fun hp => ?_
  cases hr : s.rx with
  | nil => rw [step_receiving_nothing s (by rw [hp]; rfl) hr] at h; cases h
  | cons b rest => simp

/-- Settles O42: the steps that enter the halt (`step_halts_iff`) are those that raise `Desync` (`raised_desync_iff`). -/
theorem onlyDesyncHalts : Obligations.OnlyDesyncHalts := by
  intro s t h
  have hhalt := step_halts_iff h
  refine ⟨?_, hhalt.mp⟩
  simp only [raised_desync_iff, exists_and_left]
  exact hhalt

/-! ### In the halt (R200 to R204) -/

/-- `t` is `s` with bytes appended to `RX` and taken from the front of `TX`: all that the host can do to the system
(42_byte_transport.md R141). -/
def OnlyHostActedSince (s t : State) : Prop :=
  ∃ bs k, t = withQueues (s.rx ++ bs) (s.tx.drop k) s

/-- The halted device takes no step, so every action but reset is the host's. -/
theorem act_keeps_onlyHostActedSince {s t u : State} {a : Action} (hp : s.pc = .halt) (ha : ∀ v, a ≠ .reset v)
    (hs : OnlyHostActedSince s t) (h : act a t = some u) : OnlyHostActedSince s u := by
  obtain ⟨bs, k, rfl⟩ := hs
  cases a with
  | device =>
    have hhalted : (withQueues (s.rx ++ bs) (s.tx.drop k) s).pc = .halt := hp
    rw [act_device_some, step_halted _ hhalted] at h
    cases h
  | hostSend b =>
    obtain ⟨-, rfl⟩ := (act_hostSend_some b _ u).mp h
    exact ⟨bs ++ [b], k, by simp [withQueues]⟩
  | hostTake =>
    obtain ⟨b, rest, hq, rfl⟩ := (act_hostTake_some _ u).mp h
    refine ⟨bs, k + 1, ?_⟩
    have hrest : s.tx.drop (k + 1) = rest := by
      rw [← List.tail_drop, show s.tx.drop k = b :: rest from hq, List.tail_cons]
    rw [hrest]; rfl
  | reset v => exact absurd rfl (ha v)

/-- Settles O43: the invariant is `OnlyHostActedSince` the state the run starts in. -/
theorem haltLastsUntilReset : Obligations.HaltLastsUntilReset := by
  intro as s t hp hno h
  have hstart : OnlyHostActedSince s s := ⟨[], 0, by simp [withQueues]⟩
  obtain ⟨bs, k, rfl⟩ := acts_induction_of_no_reset (P := OnlyHostActedSince s)
    (fun _ _ _ => act_keeps_onlyHostActedSince hp) as s t hno hstart h
  exact ⟨hp, rfl, rfl, rfl, rfl, rfl, rfl, ⟨k, rfl⟩, ⟨bs, rfl⟩⟩

end Sys2Proof.Proofs
end

section
/-! SUPPORT. Proofs of the statements about reset and the hazards (70_reset_and_hazards.md): no register shows before it is
written, and what reset does that nothing else does. -/

namespace Sys2Proof.Proofs

open Sys2Proof Sys2Proof.Machine Sys2Proof.Laws

/-! ### Files and buffers that agree on their first bytes (R219) -/

/-- Two files of words agree on their bytes below `c`. -/
def FileAgree {k : Nat} (c : Nat) (F G : Vector Word k) : Prop :=
  ∀ n : Fin (4 * k), n.val < c → fileByte F n = fileByte G n

/-- Two buffers agree on their bytes below `c`. -/
def BytesAgree (c : Nat) (m m' : Memory) : Prop := ∀ a : Nat, a < c → m.read a = m'.read a

theorem FileAgree.mono {k c c' : Nat} {F G : Vector Word k} (h : FileAgree c F G) (hle : c' ≤ c) : FileAgree c' F G :=
  fun n hn => h n (Nat.lt_of_lt_of_le hn hle)

theorem BytesAgree.mono {c c' : Nat} {m m' : Memory} (h : BytesAgree c m m') (hle : c' ≤ c) : BytesAgree c' m m' :=
  fun a ha => h a (Nat.lt_of_lt_of_le ha hle)

/-- The next byte written, the files agree on one byte more. -/
theorem FileAgree.afterSet {k : Nat} {F G : Vector Word k} {n : Fin (4 * k)} (h : FileAgree n.val F G) (b : Byte) :
    FileAgree (n.val + 1) (setFileByte F n b) (setFileByte G n b) := by
  intro j hj
  rw [fileByte_setFileByte, fileByte_setFileByte]
  split_ifs with hjn
  · rfl
  · have hne : j.val ≠ n.val := Fin.val_ne_of_ne hjn
    exact h j (by omega)

/-- The next byte written, the buffers agree on one byte more. -/
theorem BytesAgree.afterWrite {a : Nat} {m m' : Memory} (h : BytesAgree a m m') (b : Byte) :
    BytesAgree (a + 1) (m.write a b) (m'.write a b) := by
  intro x hx
  rw [read_write, read_write]
  split_ifs with hxa
  · rfl
  · exact h x (by omega)

theorem FileAgree.eq {k : Nat} {F G : Vector Word k} (h : FileAgree (4 * k) F G) : F = G :=
  file_eq_of_bytes fun j => h j j.isLt

theorem BytesAgree.block_eq {m m' : Memory} (h : BytesAgree 64 m m') : m.block = m'.block := by
  refine Vector.ext fun i hi => ?_
  rw [getElem_block _ hi, getElem_block _ hi]
  refine word_eq_of_lanes fun j hj => ?_
  rw [getLane_word _ _ hj, getLane_word _ _ hj]
  exact h _ (by omega)

/-- A packet ends within the buffer. -/
theorem packetAddr_sixteen_le (p : Fin 4) : packetAddr p 16 ≤ 64 := by
  unfold packetAddr
  omega

theorem BytesAgree.packetCsum_eq {m m' : Memory} (p : Fin 4) (h : BytesAgree (packetAddr p 16) m m') :
    packetCsum m p = packetCsum m' p :=
  congrArg csum (readBytes_congr m m' 16 _ fun x _ hx => h x hx)

/-- A whole block written, the buffers agree on all of it. -/
theorem bytesAgree_writeBlock (m m' : Memory) (Q : Block) : BytesAgree 64 (m.writeBlock Q) (m'.writeBlock Q) := by
  intro a ha
  rw [read_writeBlock, read_writeBlock, dif_pos ha, dif_pos ha]

/-! ### What is written in a phase (R219) -/

/-- What the present session and cycle have written: the first bytes of `K`, `N` and `IN`, and whether `OUT` and `MATCH`. -/
structure Written where
  key : Nat
  nonce : Nat
  inBuf : Nat
  outBuf : Bool
  matchFlag : Bool
  deriving DecidableEq

/-- What is written when the device is in a phase. -/
def written (ph : Phase) : Written where
  key := ph.keyBytes
  nonce := ph.nonceBytes
  inBuf := ph.inBytes
  outBuf := ph.outWritten
  matchFlag := ph.matchWritten

/-- `v` counts nothing as written that `w` does not. -/
abbrev Written.Within (v w : Written) : Prop :=
  v.key ≤ w.key ∧ v.nonce ≤ w.nonce ∧ v.inBuf ≤ w.inBuf ∧ v.outBuf ≤ w.outBuf ∧ v.matchFlag ≤ w.matchFlag

theorem Written.within_refl (w : Written) : w.Within w := ⟨le_rfl, le_rfl, le_rfl, le_rfl, le_rfl⟩

theorem written_afterKeyByte :
    ∀ n, written (Phase.afterKeyByte n) = { written (.keyData n) with key := n.val + 1 } := by decide

theorem written_afterNonceByte :
    ∀ n, written (Phase.afterNonceByte n) = { written (.nonceData n) with nonce := n.val + 1 } := by decide

theorem written_afterRxByte :
    ∀ p n, written (Phase.afterRxByte p n) = { written (.rxData p n) with inBuf := packetAddr p n.val + 1 } := by decide

theorem written_afterRxPacket_within :
    ∀ p, (written (Phase.afterRxPacket p)).Within (written (.rxReply p)) := by decide

theorem written_rxData_within : ∀ p, (written (.rxData p 0)).Within (written (.rxReply p)) := by decide

theorem written_halt_within : (written .halt).Within (written .announceAck) := by decide

theorem written_afterTxPacket_within :
    ∀ p, (written (Phase.afterTxPacket p)).Within (written (.txAck p)) := by decide

theorem written_afterTxByte : ∀ p n, written (Phase.afterTxByte p n) = written (.txData p n) := by decide

/-- A byte sent writes no register, and the phase after it counts no more as written. -/
theorem written_phaseAfterSend_within {s : State} (hk : s.pc.kind = .tx) :
    (written (phaseAfterSend s)).Within (written s.pc) := by
  cases hp : s.pc <;> simp only [hp, Phase.kind, reduceCtorEq] at hk <;> simp only [phaseAfterSend, hp]
  case rxReply p =>
    split
    · exact written_afterRxPacket_within p
    · exact written_rxData_within p
  case txData p n => exact (written_afterTxByte p n).symm ▸ Written.within_refl _
  all_goals exact Written.within_refl _

/-! ### Two states that agree on what is written -/

/-- Two states of the same device that agree on what `w` counts as written and on everything reset or the link holds. -/
structure AgreeOn (w : Written) (s t : State) : Prop where
  cfg : s.cfg = t.cfg
  counter : s.counter = t.counter
  pc : s.pc = t.pc
  rx : s.rx = t.rx
  tx : s.tx = t.tx
  key : FileAgree w.key s.key t.key
  nonce : FileAgree w.nonce s.nonce t.nonce
  inBuf : BytesAgree w.inBuf s.inBuf t.inBuf
  outBuf : w.outBuf = true → BytesAgree 64 s.outBuf t.outBuf
  matchFlag : w.matchFlag = true → s.matchFlag = t.matchFlag

theorem sameButUnwritten_iff (s t : State) : sameButUnwritten s t ↔ AgreeOn (written s.pc) s t :=
  ⟨fun ⟨hcfg, hcounter, hpc, hrx, htx, hkey, hnonce, hin, hout, hmatch⟩ =>
      ⟨hcfg, hcounter, hpc, hrx, htx, hkey, hnonce, hin, hout, hmatch⟩,
    fun h => ⟨h.cfg, h.counter, h.pc, h.rx, h.tx, h.key, h.nonce, h.inBuf, h.outBuf, h.matchFlag⟩⟩

theorem AgreeOn.mono {v w : Written} {s t : State} (h : AgreeOn w s t) (hle : v.Within w) : AgreeOn v s t :=
  have ⟨hkey, hnonce, hin, hout, hmatch⟩ := hle
  { h with
    key := h.key.mono hkey
    nonce := h.nonce.mono hnonce
    inBuf := h.inBuf.mono hin
    outBuf := fun hv => h.outBuf (hout hv)
    matchFlag := fun hv => h.matchFlag (hmatch hv) }

/-- A step that only changes the phase keeps the agreement, when the new phase counts no more as written. -/
theorem AgreeOn.goTo {ph : Phase} {s t : State} (h : AgreeOn (written s.pc) s t)
    (hle : (written ph).Within (written s.pc)) :
    AgreeOn (written ph) { s with pc := ph } { t with pc := ph } :=
  { h.mono hle with pc := rfl }

theorem AgreeOn.txRoom_eq {w : Written} {s t : State} (h : AgreeOn w s t) : s.txRoom = t.txRoom := by
  rw [State.txRoom, State.txRoom, h.cfg, h.tx]

/-! ### The phases that receive -/

theorem AgreeOn.afterWait {next : Phase} {s t : State} (h : AgreeOn (written s.pc) s t)
    (hle : (written next).Within (written s.pc)) (code b : Byte) :
    AgreeOn (written (waitFor code next b s).pc) (waitFor code next b s) (waitFor code next b t) := by
  by_cases hb : b = code
  · subst hb
    rw [waitFor_awaited, waitFor_awaited]
    exact h.goTo hle
  · rw [waitFor_stray next s hb, waitFor_stray next t hb]
    exact h

theorem AgreeOn.afterKeyData {n : Fin 32} {s t : State} (h : AgreeOn (written (.keyData n)) s t) (b : Byte) :
    AgreeOn (written (Phase.afterKeyByte n)) (keyDataRule n b s) (keyDataRule n b t) := by
  rw [written_afterKeyByte]
  exact { h with pc := rfl, key := h.key.afterSet b }

theorem AgreeOn.afterNonceData {n : Fin 8} {s t : State} (h : AgreeOn (written (.nonceData n)) s t) (b : Byte) :
    AgreeOn (written (Phase.afterNonceByte n)) (nonceDataRule n b s) (nonceDataRule n b t) := by
  rw [written_afterNonceByte]
  exact { h with pc := rfl, nonce := h.nonce.afterSet b }

theorem AgreeOn.afterRxData {p : Fin 4} {n : Fin 16} {s t : State} (h : AgreeOn (written (.rxData p n)) s t) (b : Byte) :
    AgreeOn (written (Phase.afterRxByte p n)) (rxDataRule p n b s) (rxDataRule p n b t) := by
  rw [written_afterRxByte]
  exact { h with pc := rfl, inBuf := h.inBuf.afterWrite b }

/-- The checksum is of the packet just stored, so `MATCH` is the same. -/
theorem AgreeOn.afterRxCsum {p : Fin 4} {s t : State} (h : AgreeOn (written (.rxCsum p)) s t) (b : Byte) :
    AgreeOn (written (.rxReply p)) (rxCsumRule p b s) (rxCsumRule p b t) :=
  { h with
    pc := rfl
    matchFlag := fun _ => congrArg (b == ·) (h.inBuf.packetCsum_eq p) }

theorem AgreeOn.afterAnnounceAck {s t : State} (h : AgreeOn (written s.pc) s t) (hp : s.pc = .announceAck) (b : Byte) :
    AgreeOn (written (announceAckRule b s).pc) (announceAckRule b s) (announceAckRule b t) := by
  by_cases hb : b = 0xB1
  · subst hb
    rw [announceAckRule_ack, announceAckRule_ack]
    exact h.goTo (hp ▸ Written.within_refl _)
  · rw [announceAckRule_other hb, announceAckRule_other hb]
    exact h.goTo (hp ▸ written_halt_within)

theorem AgreeOn.afterTxAck {p : Fin 4} {s t : State} (h : AgreeOn (written s.pc) s t) (hp : s.pc = .txAck p) (b : Byte) :
    AgreeOn (written (txAckRule p b s).pc) (txAckRule p b s) (txAckRule p b t) := by
  by_cases hb : b = 0xB1
  · subst hb
    rw [txAckRule_ack, txAckRule_ack]
    exact h.goTo (hp ▸ written_afterTxPacket_within p)
  · rw [txAckRule_other p hb, txAckRule_other p hb]
    exact h.goTo (hp ▸ Written.within_refl _)

/-- A received byte has the same effect in both states, and they agree on what it has written besides. -/
theorem AgreeOn.afterReceive {b : Byte} {s t s' : State} (h : AgreeOn (written s.pc) s t)
    (hs : receiveByte b s = some s') : ∃ t', receiveByte b t = some t' ∧ AgreeOn (written s'.pc) s' t' := by
  cases hp : s.pc <;> simp only [receiveByte, hp, Option.some.injEq, reduceCtorEq] at hs <;> subst hs
  all_goals simp only [receiveByte, ← h.pc, hp, Option.some.injEq, exists_eq_left']
  case waitKey | waitNonce | waitEnc => exact h.afterWait (hp ▸ Written.within_refl _) _ b
  case keyData n => exact AgreeOn.afterKeyData (hp ▸ h) b
  case nonceData n => exact AgreeOn.afterNonceData (hp ▸ h) b
  case rxData p n => exact AgreeOn.afterRxData (hp ▸ h) b
  case rxCsum p => exact AgreeOn.afterRxCsum (hp ▸ h) b
  case announceAck => exact h.afterAnnounceAck hp b
  case txAck p => exact h.afterTxAck hp b

/-! ### The phases that send, and the cipher step -/

/-- The byte a phase sends, if any, is a constant or was written: `MATCH` chooses the reply, `OUT` holds the packets. -/
theorem AgreeOn.byteSent_eq {s t : State} (h : AgreeOn (written s.pc) s t) : byteSent s = byteSent t := by
  unfold byteSent
  rw [← h.pc]
  cases hp : s.pc
  case rxReply p => rw [hp] at h; simp only [h.matchFlag rfl]
  case txData p n => rw [hp] at h; simp only [h.outBuf rfl _ (packetAddr_lt p n.val n.isLt)]
  case txCsum p => rw [hp] at h; simp only [((h.outBuf rfl).mono (packetAddr_sixteen_le p)).packetCsum_eq p]
  all_goals rfl

/-- `MATCH`, which chooses the phase after the reply to a packet, is written there. -/
theorem AgreeOn.phaseAfterSend_eq {s t : State} (h : AgreeOn (written s.pc) s t) :
    phaseAfterSend s = phaseAfterSend t := by
  unfold phaseAfterSend
  rw [← h.pc]
  cases hp : s.pc
  case rxReply p => rw [hp] at h; simp only [h.matchFlag rfl]
  all_goals rfl

/-- At the cipher step `K`, `N` and `IN` are written in full, so both states encrypt the same block alike. -/
theorem AgreeOn.afterEncrypt {s t : State} (h : AgreeOn (written .encrypt) s t) :
    AgreeOn (written .announce) (encryptRule s) (encryptRule t) := by
  have hcipher : encryptBlock s.cfg.sigma s.key s.nonce s.counter s.inBuf.block
      = encryptBlock t.cfg.sigma t.key t.nonce t.counter t.inBuf.block := by
    rw [h.cfg, h.counter, FileAgree.eq h.key, FileAgree.eq h.nonce, BytesAgree.block_eq h.inBuf]
  exact { h with
    pc := rfl
    counter := congrArg (·.2) hcipher
    inBuf := h.inBuf.mono (Nat.zero_le _)
    outBuf := fun _ => by
      rw [encryptRule_outBuf, encryptRule_outBuf, hcipher]
      exact bytesAgree_writeBlock _ _ _ }

/-! ### No register is read before it is written (R219) -/

theorem AgreeOn.label_eq {s t : State} (h : AgreeOn (written s.pc) s t) : label s = label t := by
  rw [label, label, h.byteSent_eq, h.txRoom_eq, h.pc, h.rx]

/-- Of the registers, an event depends on `IN` alone, where a packet's checksum byte is compared. -/
theorem AgreeOn.raised_eq {s t : State} (h : AgreeOn (written s.pc) s t) : raised s = raised t := by
  unfold raised
  rw [h.rx, ← h.pc]
  cases t.rx with
  | nil => cases s.pc <;> rfl
  | cons b rest =>
    cases hp : s.pc
    case rxCsum p => rw [hp] at h; simp only [h.inBuf.packetCsum_eq p]
    all_goals rfl

theorem sameOutcome_next {s t : State} (h : AgreeOn (written s.pc) s t) : sameOutcome (.next s) (.next t) :=
  (sameButUnwritten_iff s t).mpr h

/-- A byte sent is sent from both states or blocked in both, and only the phase can change what counts as written. -/
theorem AgreeOn.sameOutcome_sendThen {ph : Phase} {s t : State} (h : AgreeOn (written s.pc) s t)
    (hle : (written ph).Within (written s.pc)) (b : Byte) : sameOutcome (sendThen b ph s) (sendThen b ph t) := by
  cases hroom : s.txRoom with
  | false =>
    rw [sendThen_full _ _ _ hroom, sendThen_full _ _ _ (h.txRoom_eq ▸ hroom)]
    rfl
  | true =>
    rw [sendThen_room _ _ _ hroom, sendThen_room _ _ _ (h.txRoom_eq ▸ hroom)]
    exact sameOutcome_next { h.goTo hle with tx := congrArg (· ++ [b]) h.tx }

/-- The steps of two states that agree, by the kind of their phase. -/
theorem AgreeOn.sameOutcome_step {s t : State} (h : AgreeOn (written s.pc) s t) : sameOutcome (step s) (step t) := by
  rcases kind_cases s.pc with hk | hk | hp | hp
  · cases hr : s.rx with
    | nil =>
      rw [step_receiving_nothing s hk hr, step_receiving_nothing t (h.pc ▸ hk) (h.rx ▸ hr)]
      rfl
    | cons b rest =>
      obtain ⟨s', hs', hs⟩ := step_receiving s b rest hk hr
      have hrest : AgreeOn (written s.pc) { s with rx := rest } { t with rx := rest } := { h with rx := rfl }
      obtain ⟨t', ht', h'⟩ := hrest.afterReceive hs'
      rw [hs, step_of_receiveByte (h.rx ▸ hr) ht']
      exact sameOutcome_next h'
  · obtain ⟨b, hb, hs⟩ := step_sending s hk
    obtain ⟨c, hc, ht⟩ := step_sending t (h.pc ▸ hk)
    obtain rfl : b = c := Option.some.inj (hb.symm.trans (h.byteSent_eq.trans hc))
    rw [hs, ht, ← h.phaseAfterSend_eq]
    exact h.sameOutcome_sendThen (written_phaseAfterSend_within hk) b
  · rw [step_encrypting s hp, step_encrypting t (h.pc ▸ hp)]
    exact sameOutcome_next (AgreeOn.afterEncrypt (hp ▸ h))
  · rw [step_halted s hp, step_halted t (h.pc ▸ hp)]
    rfl

/-- Settles O51: `sameButUnwritten` is `AgreeOn` what the phase counts as written, and a step reads nothing else. -/
theorem unwrittenRegistersNeverShow : Obligations.UnwrittenRegistersNeverShow := by
  intro s t hst
  have h := (sameButUnwritten_iff s t).mp hst
  exact ⟨h.label_eq, h.raised_eq, h.sameOutcome_step⟩

/-! ### The reset action (R215 to R217) -/

theorem resetAction_queues (u : ResetContents) (s : State) :
    (Config.resetFlushesQueues = true ∧ (resetAction u s).rx = [] ∧ (resetAction u s).tx = [])
    ∨ (Config.resetFlushesQueues = false ∧ (resetAction u s).rx = s.rx ∧ (resetAction u s).tx = s.tx) := by
  cases hf : Config.resetFlushesQueues <;> simp [hf]

/-- Settles O44: the buffers are written as whole blocks, and the counter is the initial value split in halves. -/
theorem resetActionSetsPhaseAndCounter : Obligations.ResetActionSetsPhaseAndCounter := fun s u =>
  ⟨resetAction u s, rfl, rfl, join64_split64 _, rfl, rfl, rfl, block_writeBlock [] u.inBlock,
    block_writeBlock [] u.outBlock, rfl, resetAction_queues u s⟩

/-! ### What only reset does (R221) -/

/-- No arrow of the graph leads to `P_WAIT_KEY` but the scan's own. -/
theorem graph_waitKey {ph : Phase} {b : Byte} {m : Bool} (h : graph ph b m = some .waitKey) : ph = .waitKey := by
  cases ph <;> simp only [graph, Option.some.injEq, reduceCtorEq] at h
  case waitKey => rfl
  all_goals split_ifs at h

/-- The device's step neither returns to `P_WAIT_KEY` nor leaves the halt, and sets the counter back nowhere. -/
theorem step_no_way_back {s t : State} (h : step s = .next t) :
    (t.pc = .waitKey → s.pc = .waitKey) ∧ (s.pc = .halt → t.pc = .halt)
    ∧ (join64 t.counter = join64 s.counter ∨ join64 t.counter = join64 s.counter + 1) := by
  refine ⟨fun ht => ?_, fun hp => ?_, ?_⟩
  · exact graph_waitKey (ht ▸ phasesFollowTheGraph s t h)
  · rw [step_halted s hp] at h
    cases h
  · rw [counterAdvancesOnlyAtEncryption s t h]
    split_ifs
    · exact .inr rfl
    · exact .inl rfl

/-- Settles O46: the device's step by `step_no_way_back`; the host touches the queues alone. -/
theorem resetIsTheOnlyWayBack : Obligations.ResetIsTheOnlyWayBack := by
  intro a s t h ha
  cases a with
  | device => exact step_no_way_back ((act_device_some s t).mp h)
  | hostSend b =>
    obtain ⟨-, rfl⟩ := (act_hostSend_some b s t).mp h
    exact ⟨id, id, .inl rfl⟩
  | hostTake =>
    obtain ⟨b, rest, -, rfl⟩ := (act_hostTake_some s t).mp h
    exact ⟨id, id, .inl rfl⟩
  | reset u => exact absurd rfl (ha u)

end Sys2Proof.Proofs
end
